-- ==== Sys2Proof/Word.lean ====
section
/-! DEFINITION. The word types of the hopper-vm CORE: the byte that every register, the program counter,
every memory cell and every instruction is, the nibble that an instruction's two fields are, and the
address of a memory cell. Spec: 00_scope.md R5, R6; 20_memory.md R32, R33. -/

namespace Sys2Proof

/-- An 8-bit unsigned value: registers A and B, `pc`, a memory cell, an instruction (00_scope.md R5,
`XLEN`, `PCLEN`, `CELL`, `ILEN`). Bit 7 is the most significant (R6). -/
abbrev Byte := BitVec 8

/-- A 4-bit unsigned value: the opcode field and the operand field (00_scope.md R5, `OPLEN`, `IMMLEN`). -/
abbrev Nibble := BitVec 4

/-- The address of a memory cell, 0 to 254 (`MEM_SIZE` = 255). There is no cell at 255, so an
out-of-range access cannot be written down (20_memory.md R33). -/
abbrev Address := Fin 255

end Sys2Proof
end

