-- ==== Sys2Proof/Config.lean ====
section
/-! DEFINITION. The parameters of the machine (00_scope.md R5). The spec leaves none of them open, and it
has no point whose value is a draw (93_implementation_defined.md section 2), so there is no free value
here. The program image is no constant: it is the argument of reset (Machine/HostInterface.lean). -/

namespace Sys2Proof

/-- `MEM_SIZE`: the number of memory cells; valid addresses are 0 to 254 (00_scope.md R5, 20_memory.md R30). -/
abbrev Config.memSize : Nat := 255

/-- `NOPS`: the number of defined opcodes, which are 0, 1, 2 and 3 (00_scope.md R5, 30_encoding.md R54). -/
abbrev Config.definedOpcodes : Nat := 4

/-- What a cell that the image does not reach holds after reset (10_state.md R25, row `mem[i]`, N ≤ i). -/
abbrev Config.zeroFill : Byte := 0

end Sys2Proof
end

