-- ==== Sys2Proof/Syntax.lean ====
section
/-! DEFINITION. The instruction set: one constructor per row of spec/opcode_table.json (30_encoding.md R54). -/

namespace Sys2Proof

/-- The four instructions. Each carries the operand nibble of its byte. For ADD and HALT the operand is
ignored by the meaning (30_encoding.md R57); it is kept so that an instruction and its byte determine
each other (DESIGN CHOICE, safe, log entry 6). No instruction has a register field (R55). -/
inductive Instr where
  /-- ADD, opcode 0 (41_add.md R85). -/
  | add (ignored : Nibble)
  /-- LOAD_A, opcode 1 (42_load_immediate.md R90). -/
  | loadA (imm : Nibble)
  /-- LOAD_B, opcode 2 (42_load_immediate.md R91). -/
  | loadB (imm : Nibble)
  /-- HALT, opcode 3 (43_halt.md R96). -/
  | halt (ignored : Nibble)
  deriving DecidableEq, Repr

end Sys2Proof
end

