-- ==== Sys2Proof/WellFormed.lean ====
section
/-! DEFINITION. The checks the spec makes on data before the machine uses it: the opcode of a fetched byte
(40_step_cycle.md R74), the length of a program image (70_reset_and_hazards.md R123), the operand of a line
of the assembly notation (30_encoding.md R63). An `Instr` itself needs none: its one field is a nibble and
every nibble is legal for every instruction (30_encoding.md R57, R58). -/

namespace Sys2Proof

/-- Well-formed instructions. Every operand value of every row is legal: "no value is rejected"
(30_encoding.md R57), and LOAD_A and LOAD_B take any 4-bit immediate (R58). -/
def Instr.wf : Instr → Bool
  | .add _ => true
  | .loadA _ => true
  | .loadB _ => true
  | .halt _ => true

/-- The validity test on an opcode field: 0, 1, 2 or 3 (40_step_cycle.md R74). -/
def opcodeWf (opcode : Nibble) : Bool := opcode.toNat < Config.definedOpcodes

/-- The test on a program image: at most 255 bytes, of any values (70_reset_and_hazards.md R123). -/
def imageWf (image : List Byte) : Bool := image.length ≤ Config.memSize

/-- The test on the decimal operand of `LOAD_A n` and `LOAD_B n`: 0 to 15 (30_encoding.md R63). -/
def asmOperandWf (n : Nat) : Bool := n ≤ 15

/-- The test on the number of a `.byte` line: one byte (30_encoding.md R63). -/
def asmByteWf (n : Nat) : Bool := n ≤ 255

end Sys2Proof
end

