-- ==== Sys2Proof/Decode.lean ====
section
/-! DEFINITION. The instruction decoder, total on every byte, the encoder, and the reading of a word of
spec/opcode_table.json. Spec: 30_encoding.md R50 to R58. -/

namespace Sys2Proof

/-- What the decoder makes of a byte: an instruction, or an invalid one named by its opcode
(30_encoding.md R58). -/
inductive Decoded where
  | valid (i : Instr)
  | invalid (opcode : Nibble)
  deriving DecidableEq, Repr

/-- `opcode = instruction >> 4`, an unsigned shift, the top 4 bits isolated (30_encoding.md R52). -/
def opcodeOf (b : Byte) : Nibble := (b >>> 4).setWidth 4

/-- `operand = instruction & 0x0F`, the mask clearing the top 4 bits (30_encoding.md R52). -/
def operandOf (b : Byte) : Nibble := (b &&& 0x0F#8).setWidth 4

/-- The decoder: the opcode map of 30_encoding.md R54, with the 192 bytes of opcodes 4 to 15 invalid (R56). -/
def decode (b : Byte) : Decoded :=
  if opcodeWf (opcodeOf b) then
    if opcodeOf b = 0 then .valid (.add (operandOf b))
    else if opcodeOf b = 1 then .valid (.loadA (operandOf b))
    else if opcodeOf b = 2 then .valid (.loadB (operandOf b))
    else .valid (.halt (operandOf b))
  else .invalid (opcodeOf b)

/-- The opcode field of an instruction's byte (30_encoding.md R54). -/
def Instr.opcode : Instr → Nibble
  | .add _ => 0
  | .loadA _ => 1
  | .loadB _ => 2
  | .halt _ => 3

/-- The operand field of an instruction's byte (30_encoding.md R51). -/
def Instr.operand : Instr → Nibble
  | .add u => u
  | .loadA n => n
  | .loadB n => n
  | .halt u => u

/-- The byte of an instruction: the opcode over the operand (30_encoding.md R51). -/
def encode (i : Instr) : Byte := i.opcode ++ i.operand

/-- The byte whose bits are `w`, of which the table gives the low `nbits`; the bits above are 0. An
instruction is one byte in one cell, so there is no byte order (20_memory.md R38; DESIGN CHOICE, safe, log entry 7). -/
def byteOfTableWord (nbits w : Nat) : Byte := BitVec.ofNat 8 (w % 2 ^ nbits)

/-- The instruction the decoder reads from a word numbered as spec/opcode_table.json numbers it. -/
def decodeTableWord (nbits w : Nat) : Option Instr :=
  match decode (byteOfTableWord nbits w) with
  | .valid i => some i
  | .invalid _ => none

end Sys2Proof
end

