-- ==== Sys2Proof/Machine/State.lean ====
section
/-! DEFINITION. The state of the machine, the reasons a step or a reset can end without a next state, and
the state right after reset. Spec: 10_state.md R10 to R19, R25. -/

namespace Sys2Proof.Machine

/-- The names of the two general registers; symbols, since no instruction carries a register number
(00_scope.md R7, 10_state.md R10). -/
inductive Reg where
  | a
  | b
  deriving DecidableEq, Repr

/-- The run status (10_state.md R16). The value 3 is never held (93_implementation_defined.md V5). -/
inductive RunStatus where
  /-- A step may be taken. -/
  | running
  /-- A HALT instruction has been executed; terminal. -/
  | halted
  /-- A step has failed; terminal; the fault record says why. -/
  | faulted
  deriving DecidableEq, Repr

/-- The cause field of the fault record (10_state.md R17, 60_exceptions.md R100). -/
inductive FaultCause where
  /-- No fault. -/
  | none
  /-- The fetched byte's opcode field is 4 to 15 (60_exceptions.md R101). -/
  | unknownInstruction
  /-- A step began with `pc` = 255 (60_exceptions.md R102). -/
  | fetchOutOfRange
  deriving DecidableEq, Repr

/-- Memory: the cells that do not read as 0, by strictly rising address. Every unlisted address below 255
reads as 0, the spec's own reset content (10_state.md R25). `Memory.wf` in Machine/Ops.lean states the form. -/
abbrev Memory := List Host.Cell

/-- The whole state of the machine; there is no other (10_state.md R19). -/
structure State where
  /-- `registerA` (10_state.md R10). -/
  registerA : Byte
  /-- `registerB` (10_state.md R10). -/
  registerB : Byte
  /-- `programCounter`, 0 to 255 (10_state.md R13, R14). -/
  pc : Byte
  /-- The 255 cells (10_state.md R15). -/
  memory : Memory
  /-- `status` (10_state.md R16). -/
  status : RunStatus
  /-- `fault_cause` (10_state.md R17). -/
  faultCause : FaultCause
  /-- `fault_opcode` (10_state.md R17). -/
  faultOpcode : Nibble
  /-- `fault_pc` (10_state.md R17). -/
  faultPc : Byte
  deriving DecidableEq, Repr

/-- Why there is no step from a state. The spec's own two faults, `UnknownInstruction` and
`FetchOutOfRange`, are NOT here: their entry is described (60_exceptions.md R104), so a faulting step
answers a next state whose status is `faulted`. -/
inductive Fault where
  /-- Raised by `step` alone, in a state whose status is `halted`: the machine has no step there
  (40_step_cycle.md R79). Safe: the model stops where the hardware ignores the step request. -/
  | noStepHalted
  /-- Raised by `step` alone, in a state whose status is `faulted`: the machine has no step there
  (40_step_cycle.md R79). Safe: the model stops where the hardware ignores the step request. -/
  | noStepFaulted
  deriving DecidableEq, Repr

/-- What the model refuses by name. -/
inductive Refusal where
  /-- Raised by no arm of `exec`: every instruction has its meaning. Safe. -/
  | notModelled (mnemonic : String)
  /-- Raised by `hostReset` alone, for an image of more than 255 bytes, whose length it carries: the loader
  refuses it and the machine is not started (70_reset_and_hazards.md R123). Safe. -/
  | imageTooLong (length : Nat)
  deriving DecidableEq, Repr

/-- The machine right after reset with the empty image (10_state.md R25; DESIGN CHOICE, unsafe, log entry 3): every register at the
value the spec states, and every cell 0. -/
def State.reset : State where
  registerA := 0
  registerB := 0
  pc := 0
  memory := []
  status := .running
  faultCause := .none
  faultOpcode := 0
  faultPc := 0

end Sys2Proof.Machine
end

