-- ==== Sys2Proof/Machine/Ops.lean ====
section
/-! DEFINITION. The named operations over memory, registers and the program counter, the fetch and the two
tests of a step, and taking a fault, which is one shared operation. There is no return from a fault
(60_exceptions.md R107), so none is defined. -/

namespace Sys2Proof.Machine

/-! ### The memory read/write unit (20_memory.md) -/

/-- The canonical form: addresses strictly rising, each the address of a cell, and no listed cell 0
(DESIGN CHOICE, safe, log entry 9). -/
abbrev Memory.wf (m : Memory) : Prop :=
  m.Pairwise (fun c d => c.1 < d.1) ∧ ∀ c ∈ m, c.1 < Config.memSize ∧ c.2 ≠ Config.zeroFill

/-- `MemRead(addr, 1)` (20_memory.md R33): the listed cell, else the reset content 0. -/
def Memory.read (a : Address) : Memory → Byte
  | [] => Config.zeroFill
  | c :: m => if c.1 = a.val then c.2 else Memory.read a m

/-- A cell put in its place by address. -/
def Memory.insertCell (c : Host.Cell) : Memory → Memory
  | [] => [c]
  | d :: m => if c.1 < d.1 then c :: d :: m else d :: Memory.insertCell c m

/-- `MemWrite(addr, 1, v)` (20_memory.md R36), which keeps the canonical form: the old cell is taken out and
the new one is listed only if it is not 0. -/
def Memory.write (a : Address) (v : Byte) (m : Memory) : Memory :=
  if v = Config.zeroFill then m.filter (fun c => c.1 ≠ a.val)
  else Memory.insertCell (a.val, v) (m.filter (fun c => c.1 ≠ a.val))

/-- What the loader writes to a cell: the image's byte, or 0 past the image's end (70_reset_and_hazards.md R122). -/
def imageByte (image : List Byte) (a : Address) : Byte := image.getD a.val Config.zeroFill

/-- The loader's writes to the cells listed (70_reset_and_hazards.md R122). -/
def loadCells (image : List Byte) : List Address → Memory → Memory
  | [], m => m
  | a :: rest, m => loadCells image rest (Memory.write a (imageByte image a) m)

/-- The program load: every cell 0 to 254 is written, the image's bytes and then zeros
(70_reset_and_hazards.md R122). -/
def loadImage (image : List Byte) (m : Memory) : Memory := loadCells image (List.finRange 255) m

/-! ### The register file and the program counter (10_state.md) -/

/-- `x[A]`, `x[B]` read (00_scope.md R7). No register is hard-wired (10_state.md R10). -/
def readReg : Reg → State → Byte
  | .a, s => s.registerA
  | .b, s => s.registerB

/-- `x[A] <- v`, `x[B] <- v` (00_scope.md R7). -/
def writeReg : Reg → Byte → State → State
  | .a, v, s => { s with registerA := v }
  | .b, v, s => { s with registerB := v }

/-- The incrementer: `(pc + 1) mod 256` (40_step_cycle.md R76). -/
def incrementPc (pc : Byte) : Byte := BitVec.ofNat 8 ((pc.toNat + 1) % 256)

/-- Phase 5, advance, for every defined opcode (40_step_cycle.md R76). -/
def advance (s : State) : State := { s with pc := incrementPc s.pc }

/-! ### The end of a successful step (40_step_cycle.md R78) -/

/-- Phases 5 and 6 of an instruction that is not HALT: advance, result `Continue`, status kept. -/
def completeContinue (s : State) : Host.Outcome State Fault Refusal := .next (advance s)

/-- Phases 5 and 6 of HALT: advance, result `Halt`, status `Halted` (43_halt.md R96). -/
def completeHalt (s : State) : Host.Outcome State Fault Refusal := .next { advance s with status := .halted }

/-! ### Taking a fault (60_exceptions.md R104) -/

/-- `raise <Fault>(info)`, the only trap mechanism: the status and the fault record are written and nothing
else changes (60_exceptions.md R104, R105). `opcode` is 0 for `FetchOutOfRange`.
A faulting step answers this next state (DEDUCED, safe, log entry 2). -/
def raiseFault (cause : FaultCause) (opcode : Nibble) (s : State) : State :=
  { s with status := .faulted, faultCause := cause, faultOpcode := opcode, faultPc := s.pc }

/-! ### Phases 0 to 3 of a step (40_step_cycle.md R71 to R74) -/

/-- Whether a state has a step: none in the two terminal statuses (40_step_cycle.md R79; DESIGN CHOICE, safe,
log entry 1). -/
def noStep : RunStatus → Option Fault
  | .running => none
  | .halted => some .noStepHalted
  | .faulted => some .noStepFaulted

/-- Phase 0, the range test: the cell `pc` names, if there is one (40_step_cycle.md R71). -/
def fetchAddress (s : State) : Option Address :=
  if h : s.pc.toNat < Config.memSize then some ⟨s.pc.toNat, h⟩ else none

/-- Phases 0 and 1: the byte at `pc`, if `pc` names a cell (40_step_cycle.md R71, R72). -/
def fetch (s : State) : Option Byte := (fetchAddress s).map (fun a => Memory.read a s.memory)

/-- What phases 0 to 3 give: the instruction to execute, or the state a fault leaves. -/
inductive Selected where
  | execute (i : Instr)
  | faulted (s : State)
  deriving DecidableEq, Repr

/-- Phases 0 to 3: range test, fetch, decode, validity test, in that order and before anything changes
(40_step_cycle.md R70, 60_exceptions.md R106). -/
def selectInstr (s : State) : Selected :=
  match fetch s with
  | none => .faulted (raiseFault .fetchOutOfRange 0 s)
  | some b =>
    match decode b with
    | .valid i => .execute i
    | .invalid opcode => .faulted (raiseFault .unknownInstruction opcode s)

/-! ### The spec's numeric codes (10_state.md R16, R17) -/

/-- The code of a run status (10_state.md R16). -/
def RunStatus.code : RunStatus → BitVec 2
  | .running => 0
  | .halted => 1
  | .faulted => 2

/-- The code of a fault cause (10_state.md R17). -/
def FaultCause.code : FaultCause → BitVec 2
  | .none => 0
  | .unknownInstruction => 1
  | .fetchOutOfRange => 2

end Sys2Proof.Machine
end

