-- ==== Sys2Proof/Machine/Operands.lean ====
section
/-! DEFINITION. The one operand form of the machine: the 4-bit immediate, zero-extended
(30_encoding.md R53). There are no addressing modes and no register operands (30_encoding.md R55,
42_load_immediate.md R93). -/

namespace Sys2Proof.Machine

/-- `zext_8(operand)`: the 4-bit value with the upper 4 bits cleared, never sign-extended, scaled or shifted
(30_encoding.md R53). -/
def zeroExtend8 (n : Nibble) : Byte := n.setWidth 8

/-- The execute action of both immediate loads: all 8 bits of the register are written
(42_load_immediate.md R90, R91, R92). -/
def loadImmediate (r : Reg) (n : Nibble) (s : State) : State := writeReg r (zeroExtend8 n) s

end Sys2Proof.Machine
end

