-- ==== Sys2Proof/Machine/Flags.lean ====
section
/-! DEFINITION. The 8-bit ALU, and the flags it computes, which are none: the machine has no carry, zero,
overflow or negative flag (10_state.md R18), and the carry-out of the adder is recorded nowhere
(41_add.md R85, R88). -/

namespace Sys2Proof.Machine

/-- The ALU's one operation: the sum of two bytes as natural numbers, 0 to 510, reduced modulo 256
(41_add.md R85, R86). -/
def aluAdd (x y : Byte) : Byte := BitVec.ofNat 8 ((x.toNat + y.toNat) % 256)

end Sys2Proof.Machine
end

