-- ==== Sys2Proof/Machine/Arithmetic.lean ====
section
/-! DEFINITION. The arithmetic family: ADD (41_add.md). -/

namespace Sys2Proof.Machine

/-- ADD: `x[B] <- (x[A] + x[B]) mod 256`, both sources read before the destination is written; the operand is
ignored (41_add.md R85, R87; 30_encoding.md R57). -/
def execAdd (_ignored : Nibble) (s : State) : Host.Outcome State Fault Refusal :=
  completeContinue (writeReg .b (aluAdd (readReg .a s) (readReg .b s)) s)

end Sys2Proof.Machine
end

