-- ==== Sys2Proof/Machine/Load.lean ====
section
/-! DEFINITION. The immediate loads: LOAD_A and LOAD_B (42_load_immediate.md). Neither reads memory or a
register. -/

namespace Sys2Proof.Machine

/-- LOAD_A: `x[A] <- zext_8(operand)` (42_load_immediate.md R90). -/
def execLoadA (imm : Nibble) (s : State) : Host.Outcome State Fault Refusal :=
  completeContinue (loadImmediate .a imm s)

/-- LOAD_B: `x[B] <- zext_8(operand)` (42_load_immediate.md R91). -/
def execLoadB (imm : Nibble) (s : State) : Host.Outcome State Fault Refusal :=
  completeContinue (loadImmediate .b imm s)

end Sys2Proof.Machine
end

