-- ==== Sys2Proof/Machine/System.lean ====
section
/-! DEFINITION. The system family: HALT, the machine's only system instruction (43_halt.md R97). -/

namespace Sys2Proof.Machine

/-- HALT: no register is read or written; `pc` still advances; result `Halt`, status `Halted`; the operand is
ignored (43_halt.md R96; 30_encoding.md R57). -/
def execHalt (_ignored : Nibble) (s : State) : Host.Outcome State Fault Refusal := completeHalt s

end Sys2Proof.Machine
end

