-- ==== Sys2Proof/Machine/Dispatch.lean ====
section
/-! DEFINITION. Dispatch on the instruction (40_step_cycle.md R75): phases 4 to 6 of a step, in any
state (DEDUCED, safe, log entry 8). -/

namespace Sys2Proof.Machine

def exec (i : Instr) (s : State) : Host.Outcome State Fault Refusal :=
  match i with
  | .add ignored => Sys2Proof.Machine.execAdd ignored s
  | .loadA imm => Sys2Proof.Machine.execLoadA imm s
  | .loadB imm => Sys2Proof.Machine.execLoadB imm s
  | .halt ignored => Sys2Proof.Machine.execHalt ignored s

end Sys2Proof.Machine
end

