-- ==== Sys2Proof/Machine/Step.lean ====
section
/-! DEFINITION. One step of the control state machine (40_step_cycle.md R70), and the placing of a word where
the next step fetches. -/

namespace Sys2Proof.Machine

/-- One step (40_step_cycle.md R70): none in a terminal status (R79); else phases 0 to 3, and then the fault
taken or the instruction executed. -/
def step (s : State) : Host.Outcome State Fault Refusal :=
  match noStep s.status with
  | some r => .fault r
  | none =>
    match selectInstr s with
    | .faulted t => .next t
    | .execute i => exec i s

/-- The state with the byte of a table word in the cell that the next step fetches. Where `pc` names no cell
there is nowhere to put it and the state is unchanged (DESIGN CHOICE, safe, log entry 7). -/
def State.withFetchWord (s : State) (nbits w : Nat) : State :=
  match fetchAddress s with
  | some a => { s with memory := Memory.write a (byteOfTableWord nbits w) s.memory }
  | none => s

end Sys2Proof.Machine
end

