-- ==== Sys2Proof/Machine/TextForms.lean ====
section
/-! DEFINITION. The textual forms of a byte, host-side and no part of the CORE: the 8-character binary string
(30_encoding.md R60 to R62) and the spec's assembly notation as data (30_encoding.md R63;
DESIGN CHOICE, safe, log entry 12). -/

namespace Sys2Proof.Machine

/-- The one error of the binary-string helper (30_encoding.md R61). It is no fault of the CORE. -/
inductive EncodingError where
  | notEightBinaryDigits
  deriving DecidableEq, Repr

/-- The value of a binary digit (30_encoding.md R60). -/
def binaryDigit (c : Char) : Option Bool :=
  if c = '0' then some false else if c = '1' then some true else none

/-- The number that binary digits, the leftmost the most significant, add to `acc`; none at a character that
is no binary digit. -/
def binaryValue : Nat → List Char → Option Nat
  | acc, [] => some acc
  | acc, c :: rest =>
    match binaryDigit c with
    | none => none
    | some d => binaryValue (2 * acc + d.toNat) rest

/-- Text to byte: exactly 8 characters, each `0` or `1`, the leftmost bit 7 (30_encoding.md R60, R61). -/
def parseBinary (text : List Char) : Except EncodingError Byte :=
  if text.length = 8 then
    match binaryValue 0 text with
    | some n => .ok (BitVec.ofNat 8 n)
    | none => .error .notEightBinaryDigits
  else .error .notEightBinaryDigits

/-- The character of a bit. -/
def digitChar (d : Bool) : Char := if d then '1' else '0'

/-- Byte to text: 8 digits, bit 7 first, leading zeros kept (30_encoding.md R62). -/
def renderBinary (b : Byte) : List Char :=
  [digitChar (b.getLsbD 7), digitChar (b.getLsbD 6), digitChar (b.getLsbD 5), digitChar (b.getLsbD 4),
   digitChar (b.getLsbD 3), digitChar (b.getLsbD 2), digitChar (b.getLsbD 1), digitChar (b.getLsbD 0)]

/-- A line of the spec's assembly notation; the numbers are those the line writes (30_encoding.md R63). -/
inductive AsmLine where
  | add
  | loadA (n : Nat)
  | loadB (n : Nat)
  | halt
  | byte (n : Nat)
  deriving DecidableEq, Repr

/-- The byte of a line: ADD and HALT in their canonical encodings, an operand outside 0 to 15 (or a `.byte`
number that is no byte) an error of the notation (30_encoding.md R57, R63). -/
def assemble : AsmLine → Option Byte
  | .add => some 0x00
  | .loadA n => if asmOperandWf n then some (BitVec.ofNat 8 (0x10 + n)) else none
  | .loadB n => if asmOperandWf n then some (BitVec.ofNat 8 (0x20 + n)) else none
  | .halt => some 0x30
  | .byte n => if asmByteWf n then some (BitVec.ofNat 8 n) else none

end Sys2Proof.Machine
end

