-- ==== Sys2Proof/Machine/HostInterface.lean ====
section
/-! DEFINITION. The interface to the host (10_state.md R20 to R24, 70_reset_and_hazards.md R120 to R127): reset
with an image, `step_go`, the result a step reports, and the read-only outputs. -/

namespace Sys2Proof.Machine

/-- What a step reports on `step_result` (10_state.md R23). -/
inductive StepResult where
  | continue_
  | halt
  | fault
  deriving DecidableEq, Repr

/-- The encodings of `step_result` the spec gives: `Continue` 0, `Halt` 1; it gives `Fault` none
(10_state.md R23, 92_eei_decisions.md D11). -/
def StepResult.code : StepResult → Option Nat
  | .continue_ => some 0
  | .halt => some 1
  | .fault => none

/-- The result a step reports, which the status after it tells: after `Continue` the status is `Running`,
after `Halt` `Halted`, after `Fault` `Faulted` (10_state.md R23; DEDUCED, safe, log entry 5). -/
def stepResult : RunStatus → StepResult
  | .running => .continue_
  | .halted => .halt
  | .faulted => .fault

/-- Input `reset(IMAGE)`, in any status: every piece of state takes its reset value, the loader writes all 255
cells, and an image of more than 255 bytes is refused (10_state.md R20, R25; 70_reset_and_hazards.md R120
to R124; DESIGN CHOICE, safe, log entry 11: before the first reset). -/
def hostReset (image : List Byte) (s : State) : Host.Outcome State Fault Refusal :=
  if imageWf image then
    .next { State.reset with memory := loadImage image s.memory }
  else .refused (.imageTooLong image.length)

/-- Input `step_go`: in `Running` one step and its result; in a terminal status nothing changes and nothing is
reported (10_state.md R21, 40_step_cycle.md R79). -/
def stepGo (s : State) : State × Option StepResult :=
  match step s with
  | .next t => (t, some (stepResult t.status))
  | .fault _ => (s, none)
  | .refused _ => (s, none)

/-- The host sending `k` `step_go` events: the driver loop of 70_reset_and_hazards.md R127 less the rendering.
Events after the end of the run are ignored (40_step_cycle.md R84). -/
def stepGoTimes : Nat → State → State
  | 0, s => s
  | k + 1, s => stepGoTimes k (stepGo s).1

/-- `k` steps of a run, ending at the first state that has no step (40_step_cycle.md R84). -/
def runSteps : Nat → State → Host.Outcome State Fault Refusal
  | 0, s => .next s
  | k + 1, s =>
    match step s with
    | .next t => runSteps k t
    | .fault r => .fault r
    | .refused r => .refused r

/-- The two things the host can do to the machine (00_scope.md R8); the third, reading, changes nothing. -/
inductive HostEvent where
  | reset (image : List Byte)
  | stepGo
  deriving DecidableEq, Repr

/-- The machine's answer to one host event. -/
def hostEvent : HostEvent → State → Host.Outcome State Fault Refusal
  | .reset image, s => hostReset image s
  | .stepGo, s => .next (stepGo s).1

/-- The machine's answer to the host's events in turn, up to the first refusal. -/
def hostEvents : List HostEvent → State → Host.Outcome State Fault Refusal
  | [], s => .next s
  | e :: rest, s =>
    match hostEvent e s with
    | .next t => hostEvents rest t
    | .fault r => .fault r
    | .refused r => .refused r

/-- The outputs the host may read between steps, by the spec's names and widths (10_state.md R22, R24).
Memory is not among them. -/
structure Outputs where
  obsA : Byte
  obsB : Byte
  obsPc : Byte
  status : BitVec 2
  faultCause : BitVec 2
  faultOpcode : Nibble
  faultPc : Byte
  deriving DecidableEq, Repr

/-- The outputs' values: the registers themselves, with no effect on the machine (10_state.md R12, R22, R24). -/
def outputs (s : State) : Outputs where
  obsA := s.registerA
  obsB := s.registerB
  obsPc := s.pc
  status := s.status.code
  faultCause := s.faultCause.code
  faultOpcode := s.faultOpcode
  faultPc := s.faultPc

end Sys2Proof.Machine
end

