-- ==== Sys2Proof/Safety.lean ====
section
/-! DEFINITION. What counts as the end of a run and as a good one (40_step_cycle.md R84, 43_halt.md R98), and
the invariant of the states that runs reach (10_state.md R26). -/

namespace Sys2Proof.Machine

/-- A status in which no step can be taken (00_scope.md R9, 40_step_cycle.md R79). -/
def Terminal (s : State) : Prop := s.status = .halted ∨ s.status = .faulted

/-- The run ended well: `Halted` and nothing else (43_halt.md R98). A faulted state is never a good one
(60_exceptions.md R107). -/
def EndedWell (s : State) : Prop := s.status = .halted

/-- The run ended badly (40_step_cycle.md R84). -/
def EndedBadly (s : State) : Prop := s.status = .faulted

/-- The fault record is as reset leaves it: cause none and every field 0 (10_state.md R17). -/
def FaultRecordEmpty (s : State) : Prop := s.faultCause = .none ∧ s.faultOpcode = 0 ∧ s.faultPc = 0

/-- The relations of the fault record in a faulted state (10_state.md R17): `fault_pc` is `pc`, and either the
byte at `pc` is invalid and its opcode is recorded, or `pc` is 255 and the opcode field is 0. -/
def FaultRecordTruthful (s : State) : Prop :=
  s.faultPc = s.pc ∧
    ((s.faultCause = .unknownInstruction ∧
        ∃ b, fetch s = some b ∧ s.faultOpcode = opcodeOf b ∧ 4 ≤ (opcodeOf b).toNat) ∨
      (s.faultCause = .fetchOutOfRange ∧ s.pc = 255 ∧ s.faultOpcode = 0))

/-- The instruction just before `pc` is a HALT (10_state.md R26). -/
def JustAfterHalt (s : State) : Prop :=
  ∃ a : Address, a.val + 1 = s.pc.toNat ∧ opcodeOf (Memory.read a s.memory) = 3

/-- What holds of every state that a run from reset reaches (10_state.md R26), and the memory's canonical form. -/
structure ReachableInv (s : State) : Prop where
  /-- The memory is in its canonical form. -/
  memoryWf : Memory.wf s.memory
  /-- A holds 0 to 15: only LOAD_A writes it (10_state.md R11). -/
  registerA_le : s.registerA.toNat ≤ 15
  /-- While running there is no fault on record. -/
  running : s.status = .running → FaultRecordEmpty s
  /-- A halted machine stands just past the HALT that stopped it, with no fault on record. -/
  halted : s.status = .halted → JustAfterHalt s ∧ FaultRecordEmpty s
  /-- A faulted machine's record tells what happened. -/
  faulted : s.status = .faulted → FaultRecordTruthful s

end Sys2Proof.Machine
end

