-- ==== Sys2Proof/Certificates/Slice0/Obligations.lean ====
section
/-! DEFINITION. The statements for the provers, from the numbered rules of spec/. -/

open Sys2Proof Sys2Proof.Machine

/-! ### The decoder and the encoder -/

/-- 95_test_vectors.md S2 (the five bytes the source shows) and V-DEC (boundary bytes): a few words, written
out, decode to the instructions they stand for. -/
def Obligations.WrittenOutWordsDecode : Prop :=
  decode 0b00010011#8 = .valid (.loadA 3) ∧ decode 0b00100100#8 = .valid (.loadB 4) ∧
  decode 0b00000000#8 = .valid (.add 0) ∧ decode 0b00010001#8 = .valid (.loadA 1) ∧
  decode 0b00110000#8 = .valid (.halt 0) ∧ decode 0b00001111#8 = .valid (.add 15) ∧
  decode 0b00111111#8 = .valid (.halt 15) ∧ decode 0b01000000#8 = .invalid 4 ∧
  decode 0b10000000#8 = .invalid 8 ∧ decode 0b11111111#8 = .invalid 15

/-- 30_encoding.md R52: the opcode is the byte divided by 16, the operand the remainder, and the two lose no
bit (the last clause is the rule's own derived identity). -/
def Obligations.DecoderSplitsEveryByte : Prop :=
  ∀ b : Byte, (opcodeOf b).toNat = b.toNat / 16 ∧ (operandOf b).toNat = b.toNat % 16 ∧
    b.toNat = 16 * (opcodeOf b).toNat + (operandOf b).toNat

/-- 30_encoding.md R54 and R58: the partition of all 256 bytes, and the four match and mask tests. -/
def Obligations.OpcodeMapPartitionsAllBytes : Prop :=
  ∀ b : Byte,
    decode b =
      (if b.toNat < 0x10 then .valid (.add (BitVec.ofNat 4 b.toNat))
       else if b.toNat < 0x20 then .valid (.loadA (BitVec.ofNat 4 (b.toNat - 0x10)))
       else if b.toNat < 0x30 then .valid (.loadB (BitVec.ofNat 4 (b.toNat - 0x20)))
       else if b.toNat < 0x40 then .valid (.halt (BitVec.ofNat 4 (b.toNat - 0x30)))
       else .invalid (BitVec.ofNat 4 (b.toNat / 16))) ∧
    (b &&& 0xF0#8 = 0x00#8 ↔ ∃ u, decode b = .valid (.add u)) ∧
    (b &&& 0xF0#8 = 0x10#8 ↔ ∃ n, decode b = .valid (.loadA n)) ∧
    (b &&& 0xF0#8 = 0x20#8 ↔ ∃ n, decode b = .valid (.loadB n)) ∧
    (b &&& 0xF0#8 = 0x30#8 ↔ ∃ u, decode b = .valid (.halt u))

/-- Decode and encode agree in both directions (30_encoding.md R51, R52, R54): every instruction, with its
operand at every value, is what its byte decodes to, and a byte that decodes is the byte of its instruction. -/
def Obligations.DecodeEncodeAgree : Prop :=
  (∀ i : Instr, i.wf = true → decode (encode i) = .valid i) ∧
  (∀ (b : Byte) (i : Instr), decode b = .valid i → encode i = b)

/-- Encoding, loading and decoding agree (30_encoding.md R54, 70_reset_and_hazards.md R122, 20_memory.md R42):
after a reset with the bytes of any list of at most 255 instructions, the cell at each address decodes to the
instruction of that place, and each cell past the list decodes to ADD with operand 0. -/
def Obligations.LoadedInstructionsDecodeInPlace : Prop :=
  ∀ (instrs : List Instr) (s : State), instrs.length ≤ 255 →
    ∃ t, hostReset (instrs.map encode) s = .next t ∧
      ∀ a : Address, decode (Memory.read a t.memory) = .valid (instrs.getD a.val (.add 0))

/-- 30_encoding.md R53: what LOAD_A and LOAD_B write is their byte with the top 4 bits cleared, zero-extended
and never sign-extended. -/
def Obligations.ImmediateIsZeroExtended : Prop :=
  ∀ (b : Byte) (n : Nibble) (s : State),
    (decode b = .valid (.loadA n) →
      ∃ t, exec (.loadA n) s = .next t ∧ t.registerA = b &&& 0x0F#8 ∧ t.registerA.toNat = n.toNat) ∧
    (decode b = .valid (.loadB n) →
      ∃ t, exec (.loadB n) s = .next t ∧ t.registerB = b &&& 0x0F#8 ∧ t.registerB.toNat = n.toNat)

/-- 30_encoding.md R57: for ADD and HALT every operand value is legal, all give the same behaviour, each of
the two has 16 encodings, and the canonical ones are 0x00 and 0x30. -/
def Obligations.IgnoredOperandIsLegalAndIdle : Prop :=
  (∀ u : Nibble, decode (BitVec.ofNat 8 u.toNat) = .valid (.add u) ∧
    decode (BitVec.ofNat 8 (0x30 + u.toNat)) = .valid (.halt u)) ∧
  (∀ (b : Byte) (u : Nibble), decode b = .valid (.add u) → b = BitVec.ofNat 8 u.toNat) ∧
  (∀ (b : Byte) (u : Nibble), decode b = .valid (.halt u) → b = BitVec.ofNat 8 (0x30 + u.toNat)) ∧
  (∀ (u v : Nibble) (s : State), exec (.add u) s = exec (.add v) s ∧ exec (.halt u) s = exec (.halt v) s) ∧
  encode (.add 0) = 0x00 ∧ encode (.halt 0) = 0x30 ∧ assemble .add = some 0x00 ∧ assemble .halt = some 0x30

/-! ### The four instructions -/

/-- 41_add.md R85, whole: in every state ADD completes, B takes (A + B) mod 256, `pc` advances modulo 256 and
nothing else changes, whatever the operand; its bytes are 0x00 to 0x0F, canonical 0x00; the step that runs it
reports `Continue` and the status stays `Running`. -/
def Obligations.AddWritesTheSumToB : Prop :=
  (∀ (u : Nibble) (s : State), exec (.add u) s = .next { s with
      registerB := BitVec.ofNat 8 ((s.registerA.toNat + s.registerB.toNat) % 256)
      pc := BitVec.ofNat 8 ((s.pc.toNat + 1) % 256) }) ∧
  (∀ b : Byte, b.toNat ≤ 0x0F ↔ ∃ u, decode b = .valid (.add u)) ∧
  encode (.add 0) = 0x00 ∧
  (∀ (s : State) (a : Address), s.status = .running → a.val = s.pc.toNat →
    (Memory.read a s.memory).toNat ≤ 0x0F →
    stepGo s = ({ s with
      registerB := BitVec.ofNat 8 ((s.registerA.toNat + s.registerB.toNat) % 256)
      pc := BitVec.ofNat 8 ((s.pc.toNat + 1) % 256) }, some .continue_))

/-- 42_load_immediate.md R90, whole: in every state LOAD_A completes, all of A takes the immediate, `pc`
advances and nothing else changes; its byte is 0x10 plus the immediate; the step that runs it reports
`Continue`; no step takes A above 15. -/
def Obligations.LoadAWritesTheImmediateToA : Prop :=
  (∀ (n : Nibble) (s : State), exec (.loadA n) s = .next { s with
      registerA := BitVec.ofNat 8 n.toNat
      pc := BitVec.ofNat 8 ((s.pc.toNat + 1) % 256) }) ∧
  (∀ (b : Byte) (n : Nibble), decode b = .valid (.loadA n) ↔ b.toNat = 0x10 + n.toNat) ∧
  (∀ (s : State) (a : Address) (n : Nibble), s.status = .running → a.val = s.pc.toNat →
    (Memory.read a s.memory).toNat = 0x10 + n.toNat →
    stepGo s = ({ s with
      registerA := BitVec.ofNat 8 n.toNat
      pc := BitVec.ofNat 8 ((s.pc.toNat + 1) % 256) }, some .continue_)) ∧
  (∀ s t : State, s.registerA.toNat ≤ 15 → step s = .next t → t.registerA.toNat ≤ 15)

/-- 42_load_immediate.md R91, whole: in every state LOAD_B completes, all of B takes the immediate, `pc`
advances and nothing else changes; its byte is 0x20 plus the immediate; the step that runs it reports
`Continue`. -/
def Obligations.LoadBWritesTheImmediateToB : Prop :=
  (∀ (n : Nibble) (s : State), exec (.loadB n) s = .next { s with
      registerB := BitVec.ofNat 8 n.toNat
      pc := BitVec.ofNat 8 ((s.pc.toNat + 1) % 256) }) ∧
  (∀ (b : Byte) (n : Nibble), decode b = .valid (.loadB n) ↔ b.toNat = 0x20 + n.toNat) ∧
  (∀ (s : State) (a : Address) (n : Nibble), s.status = .running → a.val = s.pc.toNat →
    (Memory.read a s.memory).toNat = 0x20 + n.toNat →
    stepGo s = ({ s with
      registerB := BitVec.ofNat 8 n.toNat
      pc := BitVec.ofNat 8 ((s.pc.toNat + 1) % 256) }, some .continue_))

/-- 43_halt.md R96, whole: in every state HALT completes, `pc` still advances, the status becomes `Halted` and
nothing else changes, whatever the operand; its bytes are 0x30 to 0x3F, canonical 0x30; the step that runs it
reports `Halt`; after it a `step_go` does nothing however often, and a reset restarts the machine. -/
def Obligations.HaltAdvancesAndStops : Prop :=
  (∀ (u : Nibble) (s : State), exec (.halt u) s = .next { s with
      pc := BitVec.ofNat 8 ((s.pc.toNat + 1) % 256)
      status := .halted }) ∧
  (∀ b : Byte, (0x30 ≤ b.toNat ∧ b.toNat ≤ 0x3F) ↔ ∃ u, decode b = .valid (.halt u)) ∧
  encode (.halt 0) = 0x30 ∧
  (∀ (s : State) (a : Address), s.status = .running → a.val = s.pc.toNat →
    0x30 ≤ (Memory.read a s.memory).toNat → (Memory.read a s.memory).toNat ≤ 0x3F →
    stepGo s = ({ s with
      pc := BitVec.ofNat 8 ((s.pc.toNat + 1) % 256)
      status := .halted }, some .halt)) ∧
  (∀ (s : State) (k : Nat), s.status = .halted → stepGo s = (s, none) ∧ stepGoTimes k s = s) ∧
  (∀ (s : State) (image : List Byte), s.status = .halted → image.length ≤ 255 →
    ∃ t, hostReset image s = .next t ∧ t.status = .running)

/-- 42_load_immediate.md R92 (a rule the spec derives): the two loads of one immediate differ only in the
destination register. -/
def Obligations.LoadsDifferOnlyInDestination : Prop :=
  ∀ (n : Nibble) (s : State), ∃ ta tb,
    exec (.loadA n) s = .next ta ∧ exec (.loadB n) s = .next tb ∧
    (ta.registerA.toNat, ta.registerB) = (n.toNat, s.registerB) ∧
    (tb.registerA, tb.registerB.toNat) = (s.registerA, n.toNat) ∧
    { ta with registerA := s.registerA, registerB := s.registerB } =
      { tb with registerA := s.registerA, registerB := s.registerB }

/-- The frame of all four instructions (10_state.md R11, R18; 20_memory.md R35): every byte of memory and the
fault record are as before; A changes only under LOAD_A, B only under ADD and LOAD_B, the status only under
HALT. `pc` may change. -/
def Obligations.InstructionFrames : Prop :=
  ∀ (i : Instr) (s t : State), exec i s = .next t →
    (∀ a : Address, Memory.read a t.memory = Memory.read a s.memory) ∧
    t.faultCause = s.faultCause ∧ t.faultOpcode = s.faultOpcode ∧ t.faultPc = s.faultPc ∧
    ((∀ n, i ≠ .loadA n) → t.registerA = s.registerA) ∧
    ((∀ u, i ≠ .add u) → (∀ n, i ≠ .loadB n) → t.registerB = s.registerB) ∧
    ((∀ u, i ≠ .halt u) → t.status = s.status)

/-- The laws of the 8-bit sum that ADD writes (41_add.md R89): commutative, associative, zero, and the
complement to 256; one ADD raises B by at most A before reduction. -/
def Obligations.SumIsModularAddition : Prop :=
  (∀ x y : Byte, aluAdd x y = aluAdd y x) ∧
  (∀ x y z : Byte, aluAdd (aluAdd x y) z = aluAdd x (aluAdd y z)) ∧
  (∀ x : Byte, aluAdd x 0 = x) ∧
  (∀ x : Byte, 1 ≤ x.toNat → aluAdd x (BitVec.ofNat 8 (256 - x.toNat)) = 0) ∧
  (∀ x y : Byte, (aluAdd x y).toNat ≤ y.toNat + x.toNat)

/-- 41_add.md R89: k ADDs in a row take B from b to (b + k * a) mod 256 and `pc` from p to p + k, and nothing
else changes; from every running state whose next k cells hold ADD bytes. -/
def Obligations.RepeatedAddAccumulates : Prop :=
  ∀ (k : Nat) (s : State), s.status = .running → s.pc.toNat + k ≤ 255 →
    (∀ a : Address, s.pc.toNat ≤ a.val → a.val < s.pc.toNat + k → (Memory.read a s.memory).toNat ≤ 0x0F) →
    stepGoTimes k s = { s with
      registerB := BitVec.ofNat 8 ((s.registerB.toNat + k * s.registerA.toNat) % 256)
      pc := BitVec.ofNat 8 (s.pc.toNat + k) }

/-! ### The step -/

/-- 40_step_cycle.md R70: where the byte at `pc` decodes to a well-formed instruction, a step of a running
machine is `exec` of that instruction, with nothing added around it. -/
def Obligations.StepRunsTheDecodedInstruction : Prop :=
  ∀ (s : State) (a : Address) (i : Instr), s.status = .running → a.val = s.pc.toNat →
    decode (Memory.read a s.memory) = .valid i → i.wf = true → step s = exec i s

/-- 40_step_cycle.md R76, R77: every instruction advances `pc` by 1 modulo 256; a step that succeeds advances
it by exactly 1 without a wrap and a step that faults leaves it. The last two clauses rest on the spec's own
decisions D1 and D2. -/
def Obligations.PcAdvancesByOne : Prop :=
  (∀ (i : Instr) (s t : State), exec i s = .next t → t.pc.toNat = (s.pc.toNat + 1) % 256) ∧
  (∀ s t : State, step s = .next t → t.status ≠ .faulted → t.pc.toNat = s.pc.toNat + 1) ∧
  (∀ s t : State, step s = .next t → t.status = .faulted → t.pc = s.pc)

/-- 10_state.md R23, 40_step_cycle.md R78: a running machine reports `Halt` exactly for a HALT, `Fault` exactly
for an invalid byte, `Continue` for the other three instructions, and the status after is the one that goes
with the result. The status latch is the spec's decision D3 and the interface its decision D5. -/
def Obligations.StepResultTellsWhatRan : Prop :=
  ∀ (s : State) (a : Address), s.status = .running → a.val = s.pc.toNat →
    ((stepGo s).2 = some .continue_ ↔ (opcodeOf (Memory.read a s.memory)).toNat < 3) ∧
    ((stepGo s).2 = some .halt ↔ (opcodeOf (Memory.read a s.memory)).toNat = 3) ∧
    ((stepGo s).2 = some .fault ↔ 4 ≤ (opcodeOf (Memory.read a s.memory)).toNat) ∧
    ((stepGo s).2 = some .continue_ ↔ (stepGo s).1.status = .running) ∧
    ((stepGo s).2 = some .halt ↔ (stepGo s).1.status = .halted) ∧
    ((stepGo s).2 = some .fault ↔ (stepGo s).1.status = .faulted)

/-- 40_step_cycle.md R79, 10_state.md R21 (decision D3): a running machine always has a next state and no step
is ever refused; a terminal one has none, a `step_go` there changes and reports nothing however often, and a
reset leaves it. -/
def Obligations.OnlyTerminalStatesHaveNoStep : Prop :=
  (∀ s : State, s.status = .running → ∃ t, step s = .next t) ∧
  (∀ s : State, s.status = .halted → step s = .fault .noStepHalted) ∧
  (∀ s : State, s.status = .faulted → step s = .fault .noStepFaulted) ∧
  (∀ (s : State) (k : Nat), Terminal s → stepGo s = (s, none) ∧ stepGoTimes k s = s) ∧
  (∀ (s : State) (image : List Byte), Terminal s → image.length ≤ 255 →
    ∃ t, hostReset image s = .next t ∧ t.status = .running)

/-- 20_memory.md R37 (a rule the spec derives): no step, and no number of steps, changes memory. -/
def Obligations.MemoryNeverChangesDuringARun : Prop :=
  (∀ s t : State, step s = .next t → t.memory = s.memory) ∧
  (∀ (k : Nat) (s : State), (stepGoTimes k s).memory = s.memory)

/-! ### Faults -/

/-- Rests on 60_exceptions.md R101 and 30_encoding.md R56: a byte 0x40 to 0xFF, fetched by a running machine,
raises `UnknownInstruction`: the record takes the opcode and the address, nothing else changes, and the
machine stops; no other byte raises it; an invalid byte, as any byte, plays no part until it is fetched.
That `pc` is kept is the spec's own decision D2 and the record its decision D4 (92_eei_decisions.md). That the
fault is a next state is the model's reading (DEDUCED, log entry 2), and that the step after it answers
`noStepFaulted` is the model's choice of form (DESIGN CHOICE, log entry 1). -/
def Obligations.InvalidByteRaisesUnknownInstruction : Prop :=
  (∀ (s : State) (a : Address), s.status = .running → a.val = s.pc.toNat →
    0x40 ≤ (Memory.read a s.memory).toNat →
    step s = .next { s with
      status := .faulted
      faultCause := .unknownInstruction
      faultOpcode := BitVec.ofNat 4 ((Memory.read a s.memory).toNat / 16)
      faultPc := s.pc } ∧
    (stepGo s).2 = some .fault ∧ step (stepGo s).1 = .fault .noStepFaulted) ∧
  (∀ (s : State) (a : Address), s.status = .running → a.val = s.pc.toNat →
    (Memory.read a s.memory).toNat < 0x40 → ∃ t, step s = .next t ∧ t.status ≠ .faulted) ∧
  (∀ s t : State, s.faultCause = .none → step s = .next t → t.faultCause = .unknownInstruction →
    ∃ a : Address, a.val = s.pc.toNat ∧ 0x40 ≤ (Memory.read a s.memory).toNat) ∧
  (∀ (s t : State) (a : Address) (v : Byte), a.val ≠ s.pc.toNat → step s = .next t →
    step { s with memory := Memory.write a v s.memory } = .next { t with memory := Memory.write a v s.memory })

/-- 40_step_cycle.md R71, 60_exceptions.md R102 (the spec's decision D1 on the source's open question): a step
from `pc` = 255 raises `FetchOutOfRange`, nothing else changes and nothing is fetched; no other step raises it. -/
def Obligations.FetchAt255RaisesFetchOutOfRange : Prop :=
  (∀ s : State, s.status = .running → s.pc = 255 →
    step s = .next { s with
      status := .faulted
      faultCause := .fetchOutOfRange
      faultOpcode := 0
      faultPc := 255 } ∧ (stepGo s).2 = some .fault) ∧
  (∀ s t : State, s.faultCause = .none → step s = .next t → t.faultCause = .fetchOutOfRange → s.pc = 255)

/-- 60_exceptions.md R105, R106 (the spec's decision D2 on `pc`): a faulting step leaves A, B, `pc` and every
memory cell, records `pc`, and has exactly one of the two causes. -/
def Obligations.FaultingStepChangesNoMachineState : Prop :=
  ∀ s t : State, step s = .next t → t.status = .faulted →
    t.registerA = s.registerA ∧ t.registerB = s.registerB ∧ t.pc = s.pc ∧ t.memory = s.memory ∧
    t.faultPc = s.pc ∧
    ((t.faultCause = .unknownInstruction ∧ s.pc ≠ 255) ∨ (t.faultCause = .fetchOutOfRange ∧ s.pc = 255))

/-- 43_halt.md R98 (a rule the spec derives): a step that halts completes, advancing `pc` and leaving the fault
record; a step that faults advances nothing and fills the record. -/
def Obligations.HaltIsNotAFault : Prop :=
  ∀ s t : State, step s = .next t →
    (t.status = .halted → t.pc.toNat = s.pc.toNat + 1 ∧ t.faultCause = s.faultCause ∧
      t.faultOpcode = s.faultOpcode ∧ t.faultPc = s.faultPc) ∧
    (t.status = .faulted → t.pc = s.pc ∧ t.faultCause ≠ .none)

/-! ### Reset and program load -/

/-- 70_reset_and_hazards.md R122: after a reset with an image of N bytes, N at most 255, cell i holds byte i of
the image for i below N and 0 from N to 254, whatever memory held. -/
def Obligations.ProgramLoadFillsMemory : Prop :=
  ∀ (image : List Byte) (s : State), image.length ≤ 255 →
    ∃ t, hostReset image s = .next t ∧
      ∀ a : Address, Memory.read a t.memory = if h : a.val < image.length then image[a.val] else 0

/-- 10_state.md R25, 70_reset_and_hazards.md R120: every register's value after a reset, in any state. The
values of the status and the fault record are the spec's own decision D9. -/
def Obligations.ResetLeavesTheResetValues : Prop :=
  ∀ (image : List Byte) (s : State), image.length ≤ 255 →
    ∃ t, hostReset image s = .next t ∧ t.registerA = 0 ∧ t.registerB = 0 ∧ t.pc = 0 ∧ t.status = .running ∧
      t.faultCause = .none ∧ t.faultOpcode = 0 ∧ t.faultPc = 0

/-- 70_reset_and_hazards.md R124 (decision D9): nothing survives a reset: from any two states with canonical
memories a reset with one image gives one state, and the empty image gives `State.reset` (log entry 3). -/
def Obligations.NothingSurvivesAReset : Prop :=
  (∀ (image : List Byte) (s s' : State), Memory.wf s.memory → Memory.wf s'.memory →
    hostReset image s = hostReset image s') ∧
  (∀ s : State, Memory.wf s.memory → hostReset [] s = .next State.reset)

/-- 70_reset_and_hazards.md R123 (decision D6): exactly the images of more than 255 bytes are refused, whatever
bytes an image holds. -/
def Obligations.OnlyOverlongImagesAreRefused : Prop :=
  ∀ (image : List Byte) (s : State),
    (255 < image.length ↔ hostReset image s = .refused (.imageTooLong image.length)) ∧
    (image.length ≤ 255 ↔ ∃ t, hostReset image s = .next t)

/-! ### Invariants and whole runs -/

/-- The invariant of 10_state.md R26 (with the memory's canonical form, the model's own) holds at reset: at
`State.reset`, and after a reset with any image. -/
def Obligations.InvariantHoldsAtReset : Prop :=
  ReachableInv State.reset ∧
  ∀ (image : List Byte) (s t : State), Memory.wf s.memory → hostReset image s = .next t → ReachableInv t

/-- 10_state.md R26, R11, R17: from every state that meets the invariant, a step gives a state that meets it:
A at most 15, memory canonical, no fault on record while running or halted, a halted machine just past a HALT,
a faulted machine's record true of its `pc` and the byte there. -/
def Obligations.EveryStepKeepsTheInvariant : Prop :=
  ∀ s t : State, ReachableInv s → step s = .next t → ReachableInv t

/-- 00_scope.md R8, 70_reset_and_hazards.md R126: whatever the host does, resets and step requests in any order,
the invariant is kept. -/
def Obligations.NoHostEventBreaksTheInvariant : Prop :=
  ∀ (events : List HostEvent) (s t : State), ReachableInv s → hostEvents events s = .next t → ReachableInv t

/-- 40_step_cycle.md R83 (a rule the spec derives): every run ends. From every state, 256 less `pc` step
requests leave a terminal state; from a reset with any image, 256 do. That the 256th ends it at 255 is the
spec's own decision D1 (92_eei_decisions.md). -/
def Obligations.EveryRunEnds : Prop :=
  (∀ s : State, Terminal (stepGoTimes (256 - s.pc.toNat) s)) ∧
  (∀ (image : List Byte) (s t : State), hostReset image s = .next t → Terminal (stepGoTimes 256 t))

/-- 40_step_cycle.md R83, R84 (rules the spec derives): how a run ends is decided by the first cell, from `pc`
on, that does not hold a byte 0x00 to 0x2F: it runs until that cell and then ends well just past it if the byte
is a HALT, badly at it if the byte is invalid; with no such cell it ends badly at 255. That `pc` stays at the
invalid byte is the spec's own decision D2, that a fetch at 255 is a fault its decision D1, and that the ends
are latched its decision D3 (92_eei_decisions.md). -/
def Obligations.FirstStoppingCellDecidesTheEnd : Prop :=
  (∀ (s : State) (a : Address), s.status = .running → s.pc.toNat ≤ a.val →
    (∀ b : Address, s.pc.toNat ≤ b.val → b.val < a.val → (Memory.read b s.memory).toNat ≤ 0x2F) →
    (∀ k, k ≤ a.val - s.pc.toNat →
      (stepGoTimes k s).status = .running ∧ (stepGoTimes k s).pc.toNat = s.pc.toNat + k) ∧
    (0x30 ≤ (Memory.read a s.memory).toNat → (Memory.read a s.memory).toNat ≤ 0x3F →
      EndedWell (stepGoTimes (a.val - s.pc.toNat + 1) s) ∧
      (stepGoTimes (a.val - s.pc.toNat + 1) s).pc.toNat = a.val + 1) ∧
    (0x40 ≤ (Memory.read a s.memory).toNat →
      EndedBadly (stepGoTimes (a.val - s.pc.toNat + 1) s) ∧
      (stepGoTimes (a.val - s.pc.toNat + 1) s).pc.toNat = a.val ∧
      (stepGoTimes (a.val - s.pc.toNat + 1) s).faultCause = .unknownInstruction)) ∧
  (∀ s : State, s.status = .running →
    (∀ b : Address, s.pc.toNat ≤ b.val → (Memory.read b s.memory).toNat ≤ 0x2F) →
    (∀ k, k ≤ 255 - s.pc.toNat →
      (stepGoTimes k s).status = .running ∧ (stepGoTimes k s).pc.toNat = s.pc.toNat + k) ∧
    EndedBadly (stepGoTimes (256 - s.pc.toNat) s) ∧
    (stepGoTimes (256 - s.pc.toNat) s).pc = 255 ∧
    (stepGoTimes (256 - s.pc.toNat) s).faultCause = .fetchOutOfRange)

/-- 10_state.md R26, 60_exceptions.md R112 (the spec derives it): k successful steps that leave the machine
running add k to `pc`, so from reset `pc` equals their number. -/
def Obligations.RunningPcCountsTheSteps : Prop :=
  ∀ (k : Nat) (s t : State), runSteps k s = .next t → t.status = .running →
    t.pc.toNat = s.pc.toNat + k

/-- 30_encoding.md R56, R57: the operand bits of ADD, of HALT and of an invalid byte are never observed: two
machines whose memories differ only in such bits agree after any number of steps in everything but memory. -/
def Obligations.IgnoredOperandBitsAreNeverObserved : Prop :=
  ∀ (s : State) (m : Memory) (k : Nat),
    (∀ a : Address, Memory.read a m = Memory.read a s.memory ∨
      (opcodeOf (Memory.read a m) = opcodeOf (Memory.read a s.memory) ∧
        opcodeOf (Memory.read a m) ≠ 1 ∧ opcodeOf (Memory.read a m) ≠ 2)) →
    stepGoTimes k { s with memory := m } = { stepGoTimes k s with memory := m }

/-- Rests on 20_memory.md R34: a step depends on no byte of memory but the one at `pc`, and a step from 255 on
none: a machine whose memory agrees there answers the same, in everything but memory. That the byte at `pc` is
read is StepRunsTheDecodedInstruction. -/
def Obligations.StepReadsOnlyTheFetchedCell : Prop :=
  ∀ (s : State) (m : Memory),
    (∀ a : Address, a.val = s.pc.toNat → Memory.read a m = Memory.read a s.memory) →
    (∀ t, step s = .next t → step { s with memory := m } = .next { t with memory := m }) ∧
    (∀ r, step s = .fault r → step { s with memory := m } = .fault r)

/-- 20_memory.md R44; 40_step_cycle.md R77: a run fetches at `pc` and above only: what the cells below
`pc` hold has no effect on any number of further steps. -/
def Obligations.CellsBehindPcNeverMatter : Prop :=
  ∀ (s : State) (m : Memory) (k : Nat),
    (∀ a : Address, s.pc.toNat ≤ a.val → Memory.read a m = Memory.read a s.memory) →
    stepGoTimes k { s with memory := m } = { stepGoTimes k s with memory := m }

/-! ### Textual forms -/

/-- 30_encoding.md R62: a byte's 8 digits, bit 7 first and leading zeros kept, parse back to the byte, and a
string that parses is the 8 digits of its byte. -/
def Obligations.BinaryStringRoundTrip : Prop :=
  (∀ b : Byte, (renderBinary b).length = 8 ∧ parseBinary (renderBinary b) = .ok b ∧
    ∀ k, k < 8 → (renderBinary b)[k]? = some (if b.getLsbD (7 - k) then '1' else '0')) ∧
  (∀ (text : List Char) (b : Byte), parseBinary text = .ok b → renderBinary b = text)

/-- 30_encoding.md R60, with R61's error condition: a string is refused exactly when its length is not 8 or some character is neither
`0` nor `1`; else its leftmost character is bit 7 and its rightmost bit 0; `00010011` is 0x13. -/
def Obligations.BinaryStringMeaning : Prop :=
  (∀ text : List Char,
    (parseBinary text = .error .notEightBinaryDigits ↔
      text.length ≠ 8 ∨ ∃ c ∈ text, c ≠ '0' ∧ c ≠ '1') ∧
    (∀ b : Byte, parseBinary text = .ok b →
      ∀ k, k < 8 → (b.getLsbD (7 - k) = true ↔ text[k]? = some '1'))) ∧
  parseBinary ['0', '0', '0', '1', '0', '0', '1', '1'] = .ok 0x13

/-- Rests on 30_encoding.md R63 (the spec's own decision D8): ADD, HALT and each LOAD_A and LOAD_B line of the
notation assemble to the encoding of their instruction, a LOAD operand above 15 is an error of the notation,
and a `.byte` line assembles to its byte. That a `.byte` number above 255 is an error is the model's choice
(DESIGN CHOICE, log entry 12). -/
def Obligations.AssemblyLinesGiveTheEncodings : Prop :=
  assemble .add = some (encode (.add 0)) ∧ assemble .halt = some (encode (.halt 0)) ∧
  (∀ n : Nibble, assemble (.loadA n.toNat) = some (encode (.loadA n)) ∧
    assemble (.loadB n.toNat) = some (encode (.loadB n))) ∧
  (∀ n : Nat, 15 < n → assemble (.loadA n) = none ∧ assemble (.loadB n) = none) ∧
  (∀ b : Byte, assemble (.byte b.toNat) = some b) ∧
  (∀ n : Nat, 255 < n → assemble (.byte n) = none)
end

