-- ==== Sys2Proof/Laws/Memory.lean ====
section
/-! SUPPORT. The laws of memory: a read after a write, the canonical form kept by every operation, and equality
of canonical memories from equality of their reads. -/

namespace Sys2Proof.Machine

@[simp] theorem Memory.read_nil (a : Address) : Memory.read a [] = 0 := rfl

theorem Memory.read_cons (a : Address) (c : Host.Cell) (m : Memory) :
    Memory.read a (c :: m) = if c.1 = a.val then c.2 else Memory.read a m := rfl

/-- An address that no cell of the list has reads as 0. -/
theorem Memory.read_eq_zero_of_unlisted {a : Address} {m : Memory} (h : ∀ c ∈ m, c.1 ≠ a.val) :
    Memory.read a m = 0 := by
  induction m with
  | nil => rfl
  | cons c m ih =>
    rw [Memory.read_cons, if_neg (h c (by simp))]
    exact ih (fun d hd => h d (by simp [hd]))

theorem Memory.mem_insertCell {c d : Host.Cell} {m : Memory} :
    d ∈ Memory.insertCell c m ↔ d = c ∨ d ∈ m := by
  induction m with
  | nil => simp [Memory.insertCell]
  | cons e m ih =>
    simp only [Memory.insertCell]
    split
    · simp
    · simp only [List.mem_cons, ih]; tauto

/-- Inserting a cell leaves the reads of every other address. -/
theorem Memory.read_insertCell_other {a : Address} {c : Host.Cell} (m : Memory) (h : c.1 ≠ a.val) :
    Memory.read a (Memory.insertCell c m) = Memory.read a m := by
  induction m with
  | nil => simp [Memory.insertCell, Memory.read_cons, h]
  | cons e m ih =>
    simp only [Memory.insertCell]
    split
    · rw [Memory.read_cons, if_neg h]
    · rw [Memory.read_cons, Memory.read_cons, ih]

/-- Inserting a cell at an address that is not listed makes that address read as the cell. -/
theorem Memory.read_insertCell_same {a : Address} {v : Byte} {m : Memory} (h : ∀ c ∈ m, c.1 ≠ a.val) :
    Memory.read a (Memory.insertCell (a.val, v) m) = v := by
  induction m with
  | nil => simp [Memory.insertCell, Memory.read_cons]
  | cons e m ih =>
    simp only [Memory.insertCell]
    split
    · simp [Memory.read_cons]
    · rw [Memory.read_cons, if_neg (h e (by simp))]
      exact ih (fun d hd => h d (by simp [hd]))

/-- Taking one address out leaves the reads of every other. -/
theorem Memory.read_filter_other {a b : Address} (m : Memory) (h : a ≠ b) :
    Memory.read b (m.filter (fun c => c.1 ≠ a.val)) = Memory.read b m := by
  have hv : a.val ≠ b.val := fun e => h (Fin.ext e)
  induction m with
  | nil => rfl
  | cons c m ih =>
    by_cases hc : c.1 = a.val
    · rw [List.filter_cons_of_neg (by simpa using hc), ih, Memory.read_cons, if_neg (by omega)]
    · rw [List.filter_cons_of_pos (by simpa using hc), Memory.read_cons, Memory.read_cons, ih]

theorem Memory.filter_unlisted (a : Address) (m : Memory) :
    ∀ c ∈ m.filter (fun c => c.1 ≠ a.val), c.1 ≠ a.val := by
  intro c hc
  simpa using (List.mem_filter.mp hc).2

/-- A read after a write to the same cell gives the value written (20_memory.md R33, R36). -/
@[simp] theorem Memory.read_write_same (a : Address) (v : Byte) (m : Memory) :
    Memory.read a (Memory.write a v m) = v := by
  unfold Memory.write
  split
  · next h => rw [Memory.read_eq_zero_of_unlisted (Memory.filter_unlisted a m)]; exact h.symm
  · exact Memory.read_insertCell_same (Memory.filter_unlisted a m)

/-- A write leaves every other cell alone. -/
theorem Memory.read_write_other {a b : Address} (v : Byte) (m : Memory) (h : a ≠ b) :
    Memory.read b (Memory.write a v m) = Memory.read b m := by
  unfold Memory.write
  split
  · exact Memory.read_filter_other m h
  · rw [Memory.read_insertCell_other _ (fun e => h (Fin.ext e)), Memory.read_filter_other m h]

/-- Inserting a cell at an address not listed keeps the addresses rising. -/
theorem Memory.pairwise_insertCell {c : Host.Cell} {m : Memory}
    (hm : m.Pairwise (fun c d => c.1 < d.1)) (hc : ∀ d ∈ m, d.1 ≠ c.1) :
    (Memory.insertCell c m).Pairwise (fun c d => c.1 < d.1) := by
  induction m with
  | nil => simp [Memory.insertCell]
  | cons e m ih =>
    have hem := List.pairwise_cons.mp hm
    simp only [Memory.insertCell]
    split
    · next hlt =>
      refine List.pairwise_cons.mpr ⟨fun d hd => ?_, hm⟩
      rcases List.mem_cons.mp hd with rfl | hd
      · exact hlt
      · exact hlt.trans (hem.1 d hd)
    · next hge =>
      refine List.pairwise_cons.mpr ⟨fun d hd => ?_, ih hem.2 (fun d hd => hc d (by simp [hd]))⟩
      rcases Memory.mem_insertCell.mp hd with rfl | hd
      · have := hc e (by simp); omega
      · exact hem.1 d hd

theorem Memory.wf_nil : Memory.wf [] := by simp [Memory.wf]

/-- A write keeps the canonical form. -/
theorem Memory.wf_write {m : Memory} (a : Address) (v : Byte) (h : Memory.wf m) :
    Memory.wf (Memory.write a v m) := by
  have hp : (m.filter (fun c => c.1 ≠ a.val)).Pairwise (fun c d => c.1 < d.1) := h.1.filter _
  have hcells : ∀ c ∈ m.filter (fun c => c.1 ≠ a.val), c.1 < Config.memSize ∧ c.2 ≠ Config.zeroFill :=
    fun c hc => h.2 c (List.mem_filter.mp hc).1
  unfold Memory.write
  split
  · exact ⟨hp, hcells⟩
  · next hv =>
    refine ⟨Memory.pairwise_insertCell hp (Memory.filter_unlisted a m), fun c hc => ?_⟩
    rcases Memory.mem_insertCell.mp hc with rfl | hc
    · exact ⟨a.isLt, hv⟩
    · exact hcells c hc

/-- Two canonical memories with equal reads are equal. -/
theorem Memory.eq_of_read_eq {m n : Memory} (hm : Memory.wf m) (hn : Memory.wf n)
    (h : ∀ a : Address, Memory.read a m = Memory.read a n) : m = n := by
  induction m generalizing n with
  | nil =>
    cases n with
    | nil => rfl
    | cons d n =>
      have hd := hn.2 d (by simp)
      have := h ⟨d.1, hd.1⟩
      simp only [Memory.read_nil, Memory.read_cons, if_true] at this
      exact absurd this.symm hd.2
  | cons c m ih =>
    have hc := hm.2 c (by simp)
    have hcm := List.pairwise_cons.mp hm.1
    cases n with
    | nil =>
      have := h ⟨c.1, hc.1⟩
      simp only [Memory.read_nil, Memory.read_cons, if_true] at this
      exact absurd this hc.2
    | cons d n =>
      have hd := hn.2 d (by simp)
      have hdn := List.pairwise_cons.mp hn.1
      have key : c.1 = d.1 := by
        rcases Nat.lt_trichotomy c.1 d.1 with hlt | heq | hgt
        · have := h ⟨c.1, hc.1⟩
          rw [Memory.read_cons, if_pos rfl, Memory.read_cons, if_neg (by simp only; omega),
            Memory.read_eq_zero_of_unlisted (fun e he => by have := hdn.1 e he; simp only; omega)] at this
          exact absurd this hc.2
        · exact heq
        · have := h ⟨d.1, hd.1⟩
          rw [Memory.read_cons, if_neg (by simp only; omega), Memory.read_cons, if_pos rfl,
            Memory.read_eq_zero_of_unlisted (fun e he => by have := hcm.1 e he; simp only; omega)] at this
          exact absurd this.symm hd.2
      have hv : c.2 = d.2 := by
        have := h ⟨c.1, hc.1⟩
        simpa [Memory.read_cons, key] using this
      have tail : m = n := by
        refine ih ⟨hcm.2, fun e he => hm.2 e (by simp [he])⟩ ⟨hdn.2, fun e he => hn.2 e (by simp [he])⟩ ?_
        intro a
        by_cases ha : c.1 = a.val
        · rw [Memory.read_eq_zero_of_unlisted (fun e he => by have := hcm.1 e he; omega),
            Memory.read_eq_zero_of_unlisted (fun e he => by have := hdn.1 e he; omega)]
        · have := h a
          rwa [Memory.read_cons, if_neg ha, Memory.read_cons, if_neg (by omega)] at this
      rw [tail, Prod.ext key hv]

/-! ### The loader -/

/-- The loader's writes keep the canonical form. -/
theorem loadCells_wf (image : List Byte) (cells : List Address) {m : Memory} (h : Memory.wf m) :
    Memory.wf (loadCells image cells m) := by
  induction cells generalizing m with
  | nil => exact h
  | cons a rest ih => exact ih (Memory.wf_write a _ h)

/-- A cell the loader writes holds the image's byte; any other keeps its value. -/
theorem loadCells_read (image : List Byte) (cells : List Address) (m : Memory) (a : Address) :
    Memory.read a (loadCells image cells m) = if a ∈ cells then imageByte image a else Memory.read a m := by
  induction cells generalizing m with
  | nil => simp [loadCells]
  | cons b rest ih =>
    simp only [loadCells, ih, List.mem_cons]
    by_cases hr : a ∈ rest
    · simp [hr]
    · by_cases hab : a = b
      · subst hab; simp [hr]
      · simp [hr, hab, Memory.read_write_other _ m (Ne.symm hab)]

theorem loadImage_wf (image : List Byte) {m : Memory} (h : Memory.wf m) : Memory.wf (loadImage image m) :=
  loadCells_wf image _ h

/-- After the load every cell holds the image's byte, or 0 past the image's end, whatever was there before. -/
theorem loadImage_read (image : List Byte) (m : Memory) (a : Address) :
    Memory.read a (loadImage image m) = imageByte image a := by
  simp [loadImage, loadCells_read]

end Sys2Proof.Machine
end

