-- ==== Sys2Proof/Laws/State.lean ====
section
/-! SUPPORT. What each update of the state does to each field: one lemma per field per update, so that no later
proof unfolds a record update. -/

namespace Sys2Proof.Machine

@[simp] theorem writeReg_a_registerA (v : Byte) (s : State) : (writeReg .a v s).registerA = v := rfl
@[simp] theorem writeReg_a_registerB (v : Byte) (s : State) : (writeReg .a v s).registerB = s.registerB := rfl
@[simp] theorem writeReg_a_pc (v : Byte) (s : State) : (writeReg .a v s).pc = s.pc := rfl
@[simp] theorem writeReg_a_memory (v : Byte) (s : State) : (writeReg .a v s).memory = s.memory := rfl
@[simp] theorem writeReg_a_status (v : Byte) (s : State) : (writeReg .a v s).status = s.status := rfl
@[simp] theorem writeReg_a_faultCause (v : Byte) (s : State) : (writeReg .a v s).faultCause = s.faultCause := rfl
@[simp] theorem writeReg_a_faultOpcode (v : Byte) (s : State) : (writeReg .a v s).faultOpcode = s.faultOpcode := rfl
@[simp] theorem writeReg_a_faultPc (v : Byte) (s : State) : (writeReg .a v s).faultPc = s.faultPc := rfl

@[simp] theorem writeReg_b_registerA (v : Byte) (s : State) : (writeReg .b v s).registerA = s.registerA := rfl
@[simp] theorem writeReg_b_registerB (v : Byte) (s : State) : (writeReg .b v s).registerB = v := rfl
@[simp] theorem writeReg_b_pc (v : Byte) (s : State) : (writeReg .b v s).pc = s.pc := rfl
@[simp] theorem writeReg_b_memory (v : Byte) (s : State) : (writeReg .b v s).memory = s.memory := rfl
@[simp] theorem writeReg_b_status (v : Byte) (s : State) : (writeReg .b v s).status = s.status := rfl
@[simp] theorem writeReg_b_faultCause (v : Byte) (s : State) : (writeReg .b v s).faultCause = s.faultCause := rfl
@[simp] theorem writeReg_b_faultOpcode (v : Byte) (s : State) : (writeReg .b v s).faultOpcode = s.faultOpcode := rfl
@[simp] theorem writeReg_b_faultPc (v : Byte) (s : State) : (writeReg .b v s).faultPc = s.faultPc := rfl

@[simp] theorem advance_registerA (s : State) : (advance s).registerA = s.registerA := rfl
@[simp] theorem advance_registerB (s : State) : (advance s).registerB = s.registerB := rfl
@[simp] theorem advance_pc (s : State) : (advance s).pc = incrementPc s.pc := rfl
@[simp] theorem advance_memory (s : State) : (advance s).memory = s.memory := rfl
@[simp] theorem advance_status (s : State) : (advance s).status = s.status := rfl
@[simp] theorem advance_faultCause (s : State) : (advance s).faultCause = s.faultCause := rfl
@[simp] theorem advance_faultOpcode (s : State) : (advance s).faultOpcode = s.faultOpcode := rfl
@[simp] theorem advance_faultPc (s : State) : (advance s).faultPc = s.faultPc := rfl

@[simp] theorem raiseFault_registerA (cause : FaultCause) (opcode : Nibble) (s : State) : (raiseFault cause opcode s).registerA = s.registerA := rfl
@[simp] theorem raiseFault_registerB (cause : FaultCause) (opcode : Nibble) (s : State) : (raiseFault cause opcode s).registerB = s.registerB := rfl
@[simp] theorem raiseFault_pc (cause : FaultCause) (opcode : Nibble) (s : State) : (raiseFault cause opcode s).pc = s.pc := rfl
@[simp] theorem raiseFault_memory (cause : FaultCause) (opcode : Nibble) (s : State) : (raiseFault cause opcode s).memory = s.memory := rfl
@[simp] theorem raiseFault_status (cause : FaultCause) (opcode : Nibble) (s : State) : (raiseFault cause opcode s).status = .faulted := rfl
@[simp] theorem raiseFault_faultCause (cause : FaultCause) (opcode : Nibble) (s : State) : (raiseFault cause opcode s).faultCause = cause := rfl
@[simp] theorem raiseFault_faultOpcode (cause : FaultCause) (opcode : Nibble) (s : State) : (raiseFault cause opcode s).faultOpcode = opcode := rfl
@[simp] theorem raiseFault_faultPc (cause : FaultCause) (opcode : Nibble) (s : State) : (raiseFault cause opcode s).faultPc = s.pc := rfl

@[simp] theorem readReg_a (s : State) : readReg .a s = s.registerA := rfl
@[simp] theorem readReg_b (s : State) : readReg .b s = s.registerB := rfl

@[simp] theorem reset_registerA : State.reset.registerA = 0 := rfl
@[simp] theorem reset_registerB : State.reset.registerB = 0 := rfl
@[simp] theorem reset_pc : State.reset.pc = 0 := rfl
@[simp] theorem reset_memory : State.reset.memory = [] := rfl
@[simp] theorem reset_status : State.reset.status = .running := rfl
@[simp] theorem reset_faultCause : State.reset.faultCause = .none := rfl
@[simp] theorem reset_faultOpcode : State.reset.faultOpcode = 0 := rfl
@[simp] theorem reset_faultPc : State.reset.faultPc = 0 := rfl

end Sys2Proof.Machine
end

