-- ==== Sys2Proof/Laws/Ops.lean ====
section
/-! SUPPORT. One lemma per shared operation that says all it can do: the range test and the fetch, phases 0 to
3, the step, `step_go` and reset. Proofs cite these instead of unfolding the operations. -/

namespace Sys2Proof.Machine

@[simp] theorem incrementPc_toNat (pc : Byte) : (incrementPc pc).toNat = (pc.toNat + 1) % 256 := by
  simp [incrementPc]

@[simp] theorem aluAdd_toNat (x y : Byte) : (aluAdd x y).toNat = (x.toNat + y.toNat) % 256 := by
  simp [aluAdd]

/-- The ALU's sum is addition of 8-bit vectors. -/
theorem aluAdd_eq_add (x y : Byte) : aluAdd x y = x + y := by
  apply BitVec.eq_of_toNat_eq
  simp

@[simp] theorem zeroExtend8_toNat (n : Nibble) : (zeroExtend8 n).toNat = n.toNat := by
  have := n.isLt
  simp only [zeroExtend8, BitVec.toNat_setWidth]
  omega

/-- The range test passes exactly where `pc` is the address of a cell, which it then gives. -/
theorem fetchAddress_eq_some {s : State} {a : Address} : fetchAddress s = some a ↔ a.val = s.pc.toNat := by
  unfold fetchAddress
  constructor
  · intro h
    split at h
    · simp only [Option.some.injEq] at h; rw [← h]
    · cases h
  · intro h
    rw [dif_pos (by rw [← h]; exact a.isLt)]
    exact congrArg some (Fin.ext h.symm)

/-- The range test fails exactly at 255. -/
theorem fetchAddress_eq_none {s : State} : fetchAddress s = none ↔ s.pc = 255 := by
  have hlt := s.pc.isLt
  unfold fetchAddress
  split
  · next h =>
    simp only [reduceCtorEq, false_iff]
    intro e
    rw [e] at h
    exact absurd h (by decide)
  · next h =>
    simp only [true_iff]
    have h255 : s.pc.toNat = 255 := by
      have : ¬ s.pc.toNat < 255 := h
      omega
    exact BitVec.eq_of_toNat_eq h255

/-- Every state either names a cell to fetch or stands at 255. -/
theorem pc_cases (s : State) : s.pc = 255 ∨ ∃ a : Address, a.val = s.pc.toNat := by
  cases h : fetchAddress s with
  | none => exact .inl (fetchAddress_eq_none.mp h)
  | some a => exact .inr ⟨a, fetchAddress_eq_some.mp h⟩

theorem fetch_of_address {s : State} {a : Address} (h : a.val = s.pc.toNat) :
    fetch s = some (Memory.read a s.memory) := by
  simp [fetch, fetchAddress_eq_some.mpr h]

theorem fetch_at_255 {s : State} (h : s.pc = 255) : fetch s = none := by
  simp [fetch, fetchAddress_eq_none.mpr h]

theorem selectInstr_at_255 {s : State} (h : s.pc = 255) :
    selectInstr s = .faulted (raiseFault .fetchOutOfRange 0 s) := by
  simp [selectInstr, fetch_at_255 h]

theorem selectInstr_valid {s : State} {a : Address} {i : Instr} (h : a.val = s.pc.toNat)
    (hd : decode (Memory.read a s.memory) = .valid i) : selectInstr s = .execute i := by
  simp [selectInstr, fetch_of_address h, hd]

theorem selectInstr_invalid {s : State} {a : Address} {opcode : Nibble} (h : a.val = s.pc.toNat)
    (hd : decode (Memory.read a s.memory) = .invalid opcode) :
    selectInstr s = .faulted (raiseFault .unknownInstruction opcode s) := by
  simp [selectInstr, fetch_of_address h, hd]

@[simp] theorem noStep_eq_none {r : RunStatus} : noStep r = none ↔ r = .running := by
  cases r <;> simp [noStep]

/-- In `Running` a step is phases 0 to 3 and then what they select. -/
theorem step_of_running {s : State} (h : s.status = .running) :
    step s = match selectInstr s with
      | .faulted t => .next t
      | .execute i => exec i s := by
  unfold step
  rw [h]
  rfl

/-- All a step can do when it answers a next state: take one of the two faults, or execute the instruction
that the byte at `pc` decodes to. -/
theorem step_next_cases {s t : State} (h : step s = .next t) :
    s.status = .running ∧
      ((s.pc = 255 ∧ t = raiseFault .fetchOutOfRange 0 s) ∨
        (∃ a : Address, a.val = s.pc.toNat ∧
          ∃ opcode, decode (Memory.read a s.memory) = .invalid opcode ∧
            t = raiseFault .unknownInstruction opcode s) ∨
        (∃ a : Address, a.val = s.pc.toNat ∧
          ∃ i, decode (Memory.read a s.memory) = .valid i ∧ exec i s = .next t)) := by
  have hrun : s.status = .running := by
    cases hs : s.status with
    | running => rfl
    | halted => simp [step, hs, noStep] at h
    | faulted => simp [step, hs, noStep] at h
  refine ⟨hrun, ?_⟩
  rw [step_of_running hrun] at h
  rcases pc_cases s with hpc | ⟨a, ha⟩
  · rw [selectInstr_at_255 hpc] at h
    exact .inl ⟨hpc, by simpa using h.symm⟩
  · cases hd : decode (Memory.read a s.memory) with
    | valid i =>
      rw [selectInstr_valid ha hd] at h
      exact .inr (.inr ⟨a, ha, i, hd, h⟩)
    | invalid opcode =>
      rw [selectInstr_invalid ha hd] at h
      exact .inr (.inl ⟨a, ha, opcode, hd, by simpa using h.symm⟩)

/-- All an instruction can do: it always answers a next state, memory and the fault record as before and `pc`
advanced; each family changes what it says here and nothing else. -/
theorem exec_next_cases {i : Instr} {s t : State} (h : exec i s = .next t) :
    (∃ u, i = .add u ∧ t = advance (writeReg .b (aluAdd s.registerA s.registerB) s)) ∨
      (∃ n, i = .loadA n ∧ t = advance (writeReg .a (zeroExtend8 n) s)) ∨
      (∃ n, i = .loadB n ∧ t = advance (writeReg .b (zeroExtend8 n) s)) ∨
      (∃ u, i = .halt u ∧ t = { advance s with status := .halted }) := by
  cases i with
  | add u => exact .inl ⟨u, rfl, by simpa [exec, execAdd, completeContinue] using h.symm⟩
  | loadA n => exact .inr (.inl ⟨n, rfl, by simpa [exec, execLoadA, completeContinue, loadImmediate] using h.symm⟩)
  | loadB n =>
    exact .inr (.inr (.inl ⟨n, rfl, by simpa [exec, execLoadB, completeContinue, loadImmediate] using h.symm⟩))
  | halt u => exact .inr (.inr (.inr ⟨u, rfl, by simpa [exec, execHalt, completeHalt] using h.symm⟩))

theorem stepGo_of_next {s t : State} (h : step s = .next t) : stepGo s = (t, some (stepResult t.status)) := by
  simp [stepGo, h]

theorem stepGo_of_fault {s : State} {r : Fault} (h : step s = .fault r) : stepGo s = (s, none) := by
  simp [stepGo, h]

/-- All a reset can do when it answers a next state. -/
theorem hostReset_next {image : List Byte} {s t : State} (h : hostReset image s = .next t) :
    image.length ≤ 255 ∧ t = { State.reset with memory := loadImage image s.memory } := by
  unfold hostReset at h
  split at h
  · next hw => exact ⟨by simpa [imageWf] using hw, by simpa using h.symm⟩
  · cases h

theorem hostReset_of_fits {image : List Byte} (h : image.length ≤ 255) (s : State) :
    hostReset image s = .next { State.reset with memory := loadImage image s.memory } := by
  rw [hostReset, if_pos (by simpa [imageWf] using h)]

/-- A reset from a canonical memory leaves a canonical memory. -/
theorem hostReset_wf {image : List Byte} {s t : State} (hw : Memory.wf s.memory)
    (h : hostReset image s = .next t) : Memory.wf t.memory := by
  obtain ⟨-, rfl⟩ := hostReset_next h
  simpa using loadImage_wf image hw

theorem runSteps_of_next {s t : State} (k : Nat) (h : step s = .next t) : runSteps (k + 1) s = runSteps k t := by
  rw [runSteps, h]

theorem runSteps_of_fault {s : State} {r : Fault} (k : Nat) (h : step s = .fault r) :
    runSteps (k + 1) s = .fault r := by
  rw [runSteps, h]

end Sys2Proof.Machine
end

