-- ==== Sys2Proof/Laws/PerInstr.lean ====
section
/-! SUPPORT. Statements made instruction by instruction. Family `EncodedFields`: the byte of an instruction
carries the instruction's opcode in bits 7 to 4 and its operand in bits 3 to 0 (30_encoding.md R51, R54). -/

namespace Sys2Proof.Laws.EncodedFields

/-- The two fields of the instruction's byte are the instruction's opcode and operand. -/
def Statement (i : Instr) : Prop := opcodeOf (encode i) = i.opcode ∧ operandOf (encode i) = i.operand

theorem add (ignored : Nibble) : Statement (.add ignored) := by
  revert ignored; unfold Statement; decide

theorem loadA (imm : Nibble) : Statement (.loadA imm) := by
  revert imm; unfold Statement; decide

theorem loadB (imm : Nibble) : Statement (.loadB imm) := by
  revert imm; unfold Statement; decide

theorem halt (ignored : Nibble) : Statement (.halt ignored) := by
  revert ignored; unfold Statement; decide

end Sys2Proof.Laws.EncodedFields
end

