-- ==== Sys2Proof/Tests/Slice0.lean ====
section
/-! SUPPORT. Tests with expected results from spec/ (95_test_vectors.md, and words written out from
30_encoding.md), the smoke tests of WellFormed.lean, and for each statement with hypotheses a witness that
meets them all. -/

namespace Sys2Proof.Tests

open Sys2Proof Sys2Proof.Machine

/-- A running machine with the byte `v` at address `p` and `pc` there; every other cell is 0. -/
def machineAt (a b p v : Byte) : State :=
  { State.reset with
    registerA := a
    registerB := b
    pc := p
    memory := if v = 0 then [] else [(p.toNat, v)] }

/-- The next state, where there is one. -/
def after (o : Host.Outcome State Fault Refusal) : Option State :=
  match o with
  | .next t => some t
  | .fault _ => none
  | .refused _ => none

/-- A, B, `pc` and the status code after one step, as a row of 95_test_vectors.md has them. -/
def row (s : State) : Option (Nat × Nat × Nat × Nat) :=
  (after (step s)).map (fun t => (t.registerA.toNat, t.registerB.toNat, t.pc.toNat, t.status.code.toNat))

/-- The fault record's codes after one step, as a row of V-FLT has them. -/
def record (s : State) : Option (Nat × Nat × Nat) :=
  (after (step s)).map (fun t => (t.faultCause.code.toNat, t.faultOpcode.toNat, t.faultPc.toNat))

/-! ### WellFormed smoke: one ill-formed term for each check -/

theorem test_wf_every_operand : (Instr.add 15).wf = true ∧ (Instr.loadA 15).wf = true ∧
    (Instr.loadB 15).wf = true ∧ (Instr.halt 15).wf = true := by decide
theorem test_wf_opcode_refuses_four : opcodeWf 4 = false ∧ opcodeWf 3 = true ∧ opcodeWf 15 = false := by decide
theorem test_wf_image_refuses_256 (v : Byte) :
    imageWf (List.replicate 256 v) = false ∧ imageWf (List.replicate 255 v) = true := by
  simp only [imageWf, List.length_replicate]
  decide
theorem test_wf_asm_operand_refuses_16 : asmOperandWf 16 = false ∧ asmOperandWf 15 = true := by decide
theorem test_wf_asm_byte_refuses_256 : asmByteWf 256 = false ∧ asmByteWf 255 = true := by decide

/-! ### Decoding: words written out from 30_encoding.md R54 -/

theorem test_decode_add : decode 0b00001001#8 = .valid (.add 0b1001) := by decide
theorem test_decode_loadA : decode 0b00010011#8 = .valid (.loadA 0b0011) := by decide
theorem test_decode_loadB : decode 0b00100100#8 = .valid (.loadB 0b0100) := by decide
theorem test_decode_halt : decode 0b00111111#8 = .valid (.halt 0b1111) := by decide
theorem test_decode_invalid : decode 0b01001010#8 = .invalid 0b0100 ∧ decode 0b10000000#8 = .invalid 0b1000 := by
  decide
theorem test_table_words : decodeTableWord 8 0x00 = some (.add 0) ∧ decodeTableWord 8 0x1F = some (.loadA 15) ∧
    decodeTableWord 8 0x20 = some (.loadB 0) ∧ decodeTableWord 8 0x30 = some (.halt 0) ∧
    decodeTableWord 8 0xF0 = none := by decide

/-! ### One step: rows of 95_test_vectors.md (A, B, `pc`, status) -/

/-- V-ADD, ignored operand 15 at the last address: the sum wraps, `pc` becomes 255, still running. -/
theorem test_add_last_address : row (machineAt 15 241 254 0x0F) = some (15, 0, 255, 0) := by decide
/-- V-ADD, 510 mod 256. -/
theorem test_add_wraps : row (machineAt 255 255 7 0x00) = some (255, 254, 8, 0) := by decide
/-- V-LDA, the upper nibble of A cleared, no sign extension. -/
theorem test_loadA_clears_upper : row (machineAt 170 85 4 0x1F) = some (15, 85, 5, 0) := by decide
/-- V-LDB, 0xFF becomes 0x00. -/
theorem test_loadB_clears_all : row (machineAt 9 255 4 0x20) = some (9, 0, 5, 0) := by decide
/-- V-HLT, HALT in the last cell: `pc` 255, no fault. -/
theorem test_halt_last_address : row (machineAt 1 2 254 0x30) = some (1, 2, 255, 1) := by decide
/-- V-HLT, ignored operand 15. -/
theorem test_halt_ignored_operand : row (machineAt 200 100 0 0x3F) = some (200, 100, 1, 1) := by decide
/-- V-FLT, 0x4A at address 1: registers and `pc` unchanged, record 1/4/1. -/
theorem test_fault_invalid : row (machineAt 5 6 1 0x4A) = some (5, 6, 1, 2) ∧
    record (machineAt 5 6 1 0x4A) = some (1, 4, 1) := by decide
/-- V-FLT, invalid in the last cell: record 1/8/254. -/
theorem test_fault_last_cell : record (machineAt 5 6 254 0x80) = some (1, 8, 254) := by decide
/-- V-FLT, `pc` 255: record 2/0/255. -/
theorem test_fault_past_the_end : row (machineAt 1 2 255 0) = some (1, 2, 255, 2) ∧
    record (machineAt 1 2 255 0) = some (2, 0, 255) := by decide
/-- A placed word runs as the first instruction after reset: the source's first step, A = 3 (S1). -/
theorem test_fetch_word_runs : row (State.reset.withFetchWord 8 0x13) = some (3, 0, 1, 0) := by decide

/-! ### Host side: V-RST and V-STR -/

theorem test_reset_loads_image : (after (hostReset [0x13, 0x24] (machineAt 5 6 1 0x40))).map (·.memory) =
    some [(0, 0x13#8), (1, 0x24#8)] := by decide +kernel
theorem test_reset_refuses_256 (s : State) : after (hostReset (List.replicate 256 0) s) = none := by
  rw [hostReset, if_neg (by simp only [imageWf, List.length_replicate]; decide)]
  rfl
theorem test_step_go_ignored_when_halted :
    stepGo { State.reset with status := .halted } = ({ State.reset with status := .halted }, none) := by decide
theorem test_parse_high_bit : parseBinary ['1', '0', '0', '0', '0', '0', '0', '0'] = .ok 128 := rfl
theorem test_parse_seven_digits : parseBinary ['0', '0', '0', '1', '0', '0', '1'] = .error .notEightBinaryDigits := rfl
theorem test_render_leading_zeros : renderBinary 0x05 = ['0', '0', '0', '0', '0', '1', '0', '1'] := by decide
theorem test_assemble_operand_16 : assemble (.loadA 16) = none ∧ assemble (.loadB 3) = some 0x23 := by decide
theorem test_outputs_codes : (outputs { State.reset with status := .faulted, faultCause := .fetchOutOfRange }).status = 2 ∧
    (outputs { State.reset with status := .faulted, faultCause := .fetchOutOfRange }).faultCause = 2 := by decide

/-! ### Witnesses: the hypotheses of each statement, met together, at boundary values where it has clauses -/

theorem test_witness_decode_encode_agree :
    (Instr.halt 15).wf = true ∧ decode 0x00 = .valid (.add 0) ∧ decode 0x3F = .valid (.halt 15) := by decide

theorem test_witness_loaded_instructions : (List.replicate 255 (Instr.halt 15)).length ≤ 255 :=
  List.length_replicate.le

theorem test_witness_immediate :
    decode 0x10 = .valid (.loadA 0) ∧ decode 0x1F = .valid (.loadA 15) ∧
    decode 0x20 = .valid (.loadB 0) ∧ decode 0x2F = .valid (.loadB 15) := by decide

theorem test_witness_ignored_operand : decode 0x0F = .valid (.add 15) ∧ decode 0x30 = .valid (.halt 0) := by decide

/-- AddWritesTheSumToB, StepRunsTheDecodedInstruction, StepResultTellsWhatRan: the last cell, the last ADD byte. -/
theorem test_witness_add_step : (machineAt 15 241 254 0x0F).status = .running ∧
    (254 : Address).val = (machineAt 15 241 254 0x0F).pc.toNat ∧
    (Memory.read 254 (machineAt 15 241 254 0x0F).memory).toNat ≤ 0x0F ∧
    decode (Memory.read 254 (machineAt 15 241 254 0x0F).memory) = .valid (.add 15) ∧ (Instr.add 15).wf = true := by decide

theorem test_witness_loadA_step : (machineAt 0 0 0 0x1F).status = .running ∧ (0 : Address).val = (machineAt 0 0 0 0x1F).pc.toNat ∧
    (Memory.read 0 (machineAt 0 0 0 0x1F).memory).toNat = 0x10 + (15 : Nibble).toNat := by decide

theorem test_witness_loadA_bound : (machineAt 15 0 0 0x1F).registerA.toNat ≤ 15 ∧
    ∃ t, step (machineAt 15 0 0 0x1F) = .next t := ⟨by decide, _, rfl⟩

theorem test_witness_loadB_step : (machineAt 0 0 0 0x20).status = .running ∧ (0 : Address).val = (machineAt 0 0 0 0x20).pc.toNat ∧
    (Memory.read 0 (machineAt 0 0 0 0x20).memory).toNat = 0x20 + (0 : Nibble).toNat := by decide

theorem test_witness_halt_step : (machineAt 1 2 254 0x3F).status = .running ∧
    (254 : Address).val = (machineAt 1 2 254 0x3F).pc.toNat ∧
    0x30 ≤ (Memory.read 254 (machineAt 1 2 254 0x3F).memory).toNat ∧
    (Memory.read 254 (machineAt 1 2 254 0x3F).memory).toNat ≤ 0x3F := by decide

/-- HaltAdvancesAndStops (its last two clauses) and OnlyTerminalStatesHaveNoStep. -/
theorem test_witness_terminal : ({ State.reset with status := .halted } : State).status = .halted ∧
    Terminal { State.reset with status := .halted } ∧ Terminal { State.reset with status := .faulted } ∧
    ([0x30] : List Byte).length ≤ 255 := ⟨rfl, .inl rfl, .inr rfl, by decide⟩

/-- InstructionFrames and PcAdvancesByOne (first clause): each of the four answers a next state. -/
theorem test_witness_frames (s : State) :
    (∃ t, exec (.add 15) s = .next t) ∧ (∃ t, exec (.loadA 15) s = .next t) ∧
    (∃ t, exec (.loadB 15) s = .next t) ∧ (∃ t, exec (.halt 15) s = .next t) ∧
    (∀ n, Instr.add 15 ≠ .loadA n) ∧ (∀ u, Instr.halt 15 ≠ .add u) ∧ (∀ n, Instr.halt 15 ≠ .loadB n) ∧
    (∀ u, Instr.loadB 15 ≠ .halt u) :=
  ⟨⟨_, rfl⟩, ⟨_, rfl⟩, ⟨_, rfl⟩, ⟨_, rfl⟩, by simp, by simp, by simp, by simp⟩

theorem test_witness_sum_complement : 1 ≤ (1 : Byte).toNat ∧ 1 ≤ (255 : Byte).toNat := by decide

/-- RepeatedAddAccumulates, all 255 cells. -/
theorem test_witness_repeated_add : State.reset.status = .running ∧ State.reset.pc.toNat + 255 ≤ 255 ∧
    ∀ a : Address, State.reset.pc.toNat ≤ a.val → a.val < State.reset.pc.toNat + 255 →
      (Memory.read a State.reset.memory).toNat ≤ 0x0F :=
  ⟨rfl, by decide, fun a _ _ => by simp⟩

/-- PcAdvancesByOne, MemoryNeverChangesDuringARun, HaltIsNotAFault: a step that halts at the last cell. -/
theorem test_witness_step_halts : ∃ t, step (machineAt 1 2 254 0x30) = .next t ∧ t.status = .halted :=
  ⟨_, rfl, by decide⟩

/-- PcAdvancesByOne, FaultingStepChangesNoMachineState, HaltIsNotAFault: a step that faults, by either cause. -/
theorem test_witness_step_faults :
    (∃ t, step (machineAt 5 6 254 0x80) = .next t ∧ t.status = .faulted) ∧
    (∃ t, step (machineAt 1 2 255 0) = .next t ∧ t.status = .faulted) := ⟨⟨_, rfl, rfl⟩, ⟨_, rfl, rfl⟩⟩

/-- InvalidByteRaisesUnknownInstruction, clause 1 at the smallest and largest invalid byte, clause 2 at the
largest valid one. -/
theorem test_witness_invalid_byte : (machineAt 5 6 1 0x40).status = .running ∧ (1 : Address).val = (machineAt 5 6 1 0x40).pc.toNat ∧
    0x40 ≤ (Memory.read 1 (machineAt 5 6 1 0x40).memory).toNat ∧ 0x40 ≤ (Memory.read 1 (machineAt 5 6 1 0xFF).memory).toNat ∧
    (Memory.read 1 (machineAt 5 6 1 0x3F).memory).toNat < 0x40 := by decide

/-- InvalidByteRaisesUnknownInstruction, clauses 3 and 4. -/
theorem test_witness_invalid_byte_only :
    (machineAt 5 6 1 0x40).faultCause = .none ∧
    (∃ t, step (machineAt 5 6 1 0x40) = .next t ∧ t.faultCause = .unknownInstruction) ∧
    (0 : Address).val ≠ (machineAt 5 6 1 0x40).pc.toNat := ⟨rfl, ⟨_, rfl, rfl⟩, by decide⟩

theorem test_witness_fetch_at_255 : (machineAt 1 2 255 0).status = .running ∧ (machineAt 1 2 255 0).pc = 255 ∧
    (machineAt 1 2 255 0).faultCause = .none ∧
    ∃ t, step (machineAt 1 2 255 0) = .next t ∧ t.faultCause = .fetchOutOfRange := ⟨rfl, rfl, rfl, _, rfl, rfl⟩

/-- ProgramLoadFillsMemory, ResetLeavesTheResetValues: the empty and the longest image. -/
theorem test_witness_image_lengths : ([] : List Byte).length ≤ 255 ∧ (List.replicate 255 (0xFF : Byte)).length ≤ 255 :=
  ⟨Nat.zero_le _, List.length_replicate.le⟩

/-- NothingSurvivesAReset: two different canonical memories, the last cell among them. -/
theorem test_witness_nothing_survives : Memory.wf [(0, 0x13#8), (254, 0x30#8)] ∧ Memory.wf [] := by decide

theorem test_witness_invariant_at_reset : Memory.wf (machineAt 5 6 1 0x40).memory ∧
    ∃ t, hostReset [0x30] (machineAt 5 6 1 0x40) = .next t := ⟨by decide, _, hostReset_of_fits (by decide) _⟩

/-- EveryStepKeepsTheInvariant and NoHostEventBreaksTheInvariant: a state of the invariant that has a step. -/
theorem test_witness_invariant : ReachableInv (machineAt 3 4 2 0x30) ∧ (∃ t, step (machineAt 3 4 2 0x30) = .next t) ∧
    ∃ t, hostEvents [.stepGo, .stepGo, .reset [0x40], .stepGo] (machineAt 3 4 2 0x30) = .next t :=
  ⟨⟨by decide, by decide, fun _ => ⟨rfl, rfl, rfl⟩, nofun, nofun⟩, ⟨_, rfl⟩, ⟨_, rfl⟩⟩

theorem test_witness_run_ends : ∃ t, hostReset [0x10] State.reset = .next t := ⟨_, hostReset_of_fits (by decide) _⟩

/-- A running machine at address 0 with the LOAD_B byte 0x2F in cell 253, the last that does not stop a run,
and `v` in cell 254. -/
def lastCellStops (v : Byte) : State := { State.reset with memory := [(253, 0x2F#8), (254, v)] }

/-- FirstStoppingCellDecidesTheEnd, its first part: the HALT bytes 0x30 and 0x3F and the invalid byte 0x40 in the
last cell, a straight line that ends with 0x2F before it. -/
theorem test_witness_first_stopping_cell :
    (lastCellStops 0x30).status = .running ∧ (lastCellStops 0x30).pc.toNat ≤ (254 : Address).val ∧
    (∀ v ∈ [0x30#8, 0x3F#8, 0x40#8], ∀ b : Address, (lastCellStops v).pc.toNat ≤ b.val → b.val < (254 : Address).val →
      (Memory.read b (lastCellStops v).memory).toNat ≤ 0x2F) ∧
    (∀ v ∈ [0x30#8, 0x3F#8], 0x30 ≤ (Memory.read 254 (lastCellStops v).memory).toNat ∧
      (Memory.read 254 (lastCellStops v).memory).toNat ≤ 0x3F) ∧
    0x40 ≤ (Memory.read 254 (lastCellStops 0x40).memory).toNat := by decide +kernel

/-- FirstStoppingCellDecidesTheEnd, its second part: no stopping cell from address 0 on, 0x2F in the last cell;
and `pc` 255, where no cell is left. -/
theorem test_witness_no_stopping_cell :
    (lastCellStops 0x2F).status = .running ∧ (machineAt 1 2 255 0).status = .running ∧
    (∀ b : Address, (lastCellStops 0x2F).pc.toNat ≤ b.val →
      (Memory.read b (lastCellStops 0x2F).memory).toNat ≤ 0x2F) ∧
    (∀ b : Address, (machineAt 1 2 255 0).pc.toNat ≤ b.val →
      (Memory.read b (machineAt 1 2 255 0).memory).toNat ≤ 0x2F) := by decide +kernel

theorem test_witness_running_pc : ∃ t, runSteps 3 State.reset = .next t ∧ t.status = .running := ⟨_, rfl, rfl⟩

/-- IgnoredOperandBitsAreNeverObserved: memories that differ in the operand bits of an ADD, a HALT and an
invalid byte. -/
theorem test_witness_ignored_bits : ∀ a : Address,
    Memory.read a [(0, 0x0A#8), (1, 0x3C#8), (2, 0x4F#8)] = Memory.read a [(0, 0x05#8), (1, 0x30#8), (2, 0x40#8)] ∨
      (opcodeOf (Memory.read a [(0, 0x0A#8), (1, 0x3C#8), (2, 0x4F#8)]) =
          opcodeOf (Memory.read a [(0, 0x05#8), (1, 0x30#8), (2, 0x40#8)]) ∧
        opcodeOf (Memory.read a [(0, 0x0A#8), (1, 0x3C#8), (2, 0x4F#8)]) ≠ 1 ∧
        opcodeOf (Memory.read a [(0, 0x0A#8), (1, 0x3C#8), (2, 0x4F#8)]) ≠ 2) := by decide +kernel

/-- StepReadsOnlyTheFetchedCell and CellsBehindPcNeverMatter: memories that differ below `pc`; a step exists,
and in a terminal status none does. -/
theorem test_witness_cells_behind :
    (∀ a : Address, (machineAt 3 4 1 0x30).pc.toNat ≤ a.val →
      Memory.read a [(0, 0x77#8), (1, 0x30#8)] = Memory.read a (machineAt 3 4 1 0x30).memory) ∧
    (∃ t, step (machineAt 3 4 1 0x30) = .next t) ∧
    step { machineAt 3 4 1 0x30 with status := .halted } = .fault .noStepHalted := ⟨by decide +kernel, ⟨_, rfl⟩, rfl⟩

/-- StepReadsOnlyTheFetchedCell at `pc` 255: memories that differ in the first and the last cell, no cell at `pc`
to agree on, and a step exists. -/
theorem test_witness_no_cell_at_255 :
    (∀ a : Address, a.val = (machineAt 1 2 255 0).pc.toNat →
      Memory.read a [(0, 0x77#8), (254, 0x30#8)] = Memory.read a (machineAt 1 2 255 0).memory) ∧
    ∃ t, step (machineAt 1 2 255 0) = .next t := ⟨by decide +kernel, _, rfl⟩

theorem test_witness_binary_string : parseBinary ['1', '1', '1', '1', '1', '1', '1', '1'] = .ok 255 ∧ 7 < 8 :=
  ⟨rfl, by decide⟩

theorem test_witness_assembly : 15 < 16 ∧ 255 < 256 := by decide

end Sys2Proof.Tests
end

/-! ### The decoder and the encoder: the fields of a byte, and decode against encode (30_encoding.md R51 to R58) -/

namespace Sys2Proof

/-- Every instruction's byte carries its two fields (the family `EncodedFields`, over all constructors). -/
theorem encodedFields : ∀ i : Instr, Laws.EncodedFields.Statement i
  | .add u => Laws.EncodedFields.add u
  | .loadA n => Laws.EncodedFields.loadA n
  | .loadB n => Laws.EncodedFields.loadB n
  | .halt u => Laws.EncodedFields.halt u

@[simp] theorem opcodeOf_encode (i : Instr) : opcodeOf (encode i) = i.opcode := (encodedFields i).1

@[simp] theorem operandOf_encode (i : Instr) : operandOf (encode i) = i.operand := (encodedFields i).2

@[simp] theorem opcodeOf_toNat (b : Byte) : (opcodeOf b).toNat = b.toNat / 16 := by
  have := b.isLt
  simp only [opcodeOf, BitVec.toNat_setWidth, BitVec.toNat_ushiftRight, Nat.shiftRight_eq_div_pow]
  omega

@[simp] theorem operandOf_toNat (b : Byte) : (operandOf b).toNat = b.toNat % 16 := by
  have hmask : b.toNat &&& 15 = b.toNat % 16 := Nat.and_two_pow_sub_one_eq_mod b.toNat 4
  simp only [operandOf, BitVec.toNat_setWidth, BitVec.toNat_and, BitVec.toNat_ofNat, Nat.reducePow,
    Nat.reduceMod, hmask, Nat.mod_mod]

theorem encode_toNat (i : Instr) : (encode i).toNat = 16 * i.opcode.toNat + i.operand.toNat := by
  have hop := opcodeOf_toNat (encode i)
  have hopd := operandOf_toNat (encode i)
  rw [opcodeOf_encode] at hop
  rw [operandOf_encode] at hopd
  omega

/-- What the decoder reads from a byte has that byte's two fields. -/
theorem fields_of_decode {b : Byte} {i : Instr} (h : decode b = .valid i) :
    i.opcode = opcodeOf b ∧ i.operand = operandOf b := by
  unfold decode at h
  split at h
  · next hwf =>
    split_ifs at h with h0 h1 h2 <;> obtain rfl := Decoded.valid.inj h
    · exact ⟨h0.symm, rfl⟩
    · exact ⟨h1.symm, rfl⟩
    · exact ⟨h2.symm, rfl⟩
    · refine ⟨?_, rfl⟩
      have hlt : (opcodeOf b).toNat < 4 := by simpa [opcodeWf] using hwf
      simp only [Instr.opcode]
      bv_omega
  · cases h

theorem decode_encode (i : Instr) : decode (encode i) = .valid i := by
  cases i <;> simp [decode, opcodeWf, Config.definedOpcodes, Instr.opcode, Instr.operand]

theorem encode_of_decode {b : Byte} {i : Instr} (h : decode b = .valid i) : encode i = b := by
  obtain ⟨hop, hopd⟩ := fields_of_decode h
  apply BitVec.eq_of_toNat_eq
  rw [encode_toNat, hop, hopd, opcodeOf_toNat, operandOf_toNat]
  omega

theorem encode_eq_ofNat (i : Instr) :
    encode i = BitVec.ofNat 8 (16 * i.opcode.toNat + i.operand.toNat) := by
  rw [← encode_toNat, BitVec.ofNat_toNat, BitVec.setWidth_eq]

theorem encode_add (u : Nibble) : encode (.add u) = BitVec.ofNat 8 u.toNat := by
  simp [encode_eq_ofNat, Instr.opcode, Instr.operand]

theorem encode_halt (u : Nibble) : encode (.halt u) = BitVec.ofNat 8 (0x30 + u.toNat) :=
  encode_eq_ofNat (.halt u)

end Sys2Proof

/-! ### The meanings that use, or ignore, the operand (30_encoding.md R53, R57) -/

namespace Sys2Proof.Machine

theorem exec_add (u : Nibble) (s : State) :
    exec (.add u) s = .next (advance (writeReg .b (aluAdd s.registerA s.registerB) s)) := rfl

theorem exec_loadA (n : Nibble) (s : State) :
    exec (.loadA n) s = .next (advance (writeReg .a (zeroExtend8 n) s)) := rfl

theorem exec_loadB (n : Nibble) (s : State) :
    exec (.loadB n) s = .next (advance (writeReg .b (zeroExtend8 n) s)) := rfl

theorem exec_halt (u : Nibble) (s : State) :
    exec (.halt u) s = .next { advance s with status := .halted } := rfl

/-- The operand, zero-extended, is the byte with its top 4 bits cleared (30_encoding.md R52, R53). -/
theorem zeroExtend8_operandOf (b : Byte) : zeroExtend8 (operandOf b) = b &&& 0x0F#8 := by
  apply BitVec.eq_of_toNat_eq
  rw [zeroExtend8_toNat, operandOf_toNat, BitVec.toNat_and]
  exact (Nat.and_two_pow_sub_one_eq_mod b.toNat 4).symm

theorem zeroExtend8_operand_of_decode {b : Byte} {i : Instr} (h : decode b = .valid i) :
    zeroExtend8 i.operand = b &&& 0x0F#8 := by
  obtain ⟨-, hopd⟩ := fields_of_decode h
  rw [hopd, zeroExtend8_operandOf]

/-- Settles O6: the immediate is the operand field of the byte it was decoded from. -/
theorem immediateIsZeroExtended : Obligations.ImmediateIsZeroExtended := by
  intro b n s
  exact ⟨fun h => ⟨_, exec_loadA n s, zeroExtend8_operand_of_decode h, zeroExtend8_toNat n⟩,
    fun h => ⟨_, exec_loadB n s, zeroExtend8_operand_of_decode h, zeroExtend8_toNat n⟩⟩

/-- Settles O7: the bytes are those that `encode` gives, and neither meaning mentions the operand. -/
theorem ignoredOperandIsLegalAndIdle : Obligations.IgnoredOperandIsLegalAndIdle := by
  refine ⟨fun u => ⟨?_, ?_⟩, fun b u h => ?_, fun b u h => ?_, fun u v s => ⟨?_, ?_⟩,
    encode_add 0, encode_halt 0, rfl, rfl⟩
  · rw [← encode_add, decode_encode]
  · rw [← encode_halt, decode_encode]
  · rw [← encode_add, encode_of_decode h]
  · rw [← encode_halt, encode_of_decode h]
  · rw [exec_add, exec_add]
  · rw [exec_halt, exec_halt]

end Sys2Proof.Machine

/-! ### The 8-character binary string (30_encoding.md R60 to R62) -/

namespace Sys2Proof.Machine

theorem binaryDigit_eq_none {c : Char} : binaryDigit c = none ↔ c ≠ '0' ∧ c ≠ '1' := by
  unfold binaryDigit
  split_ifs <;> simp_all

theorem eq_digitChar_of_binaryDigit {c : Char} {d : Bool} (h : binaryDigit c = some d) :
    c = digitChar d := by
  unfold binaryDigit at h
  split_ifs at h with h0 h1 <;> obtain rfl := Option.some.inj h
  · exact h0
  · exact h1

theorem digitChar_eq_zero_or_one (d : Bool) : digitChar d = '0' ∨ digitChar d = '1' := by
  cases d
  · exact .inl rfl
  · exact .inr rfl

@[simp] theorem digitChar_eq_one {d : Bool} : digitChar d = '1' ↔ d = true := by
  cases d <;> decide

theorem digitChar_injective : Function.Injective digitChar := fun d e h => by
  rw [Bool.eq_iff_iff, ← digitChar_eq_one, h, digitChar_eq_one]

/-- Reading digits fails exactly at a character that is none. -/
theorem binaryValue_eq_none {acc : Nat} {text : List Char} :
    binaryValue acc text = none ↔ ∃ c ∈ text, c ≠ '0' ∧ c ≠ '1' := by
  induction text generalizing acc with
  | nil => simp [binaryValue]
  | cons c rest ih =>
    rw [List.exists_mem_cons_iff, ← binaryDigit_eq_none, binaryValue]
    cases binaryDigit c with
    | none => simp
    | some d => simp [ih]

/-- A reading that succeeds takes the first character's digit into the accumulator and reads on. -/
theorem binaryValue_cons_eq_some {acc n : Nat} {c : Char} {rest : List Char}
    (h : binaryValue acc (c :: rest) = some n) :
    ∃ d, c = digitChar d ∧ binaryValue (2 * acc + d.toNat) rest = some n := by
  rw [binaryValue] at h
  cases hd : binaryDigit c with
  | none => simp [hd] at h
  | some d => exact ⟨d, eq_digitChar_of_binaryDigit hd, by simpa [hd] using h⟩

/-- Reading digits shifts the accumulator's bits up by the number of digits. -/
theorem testBit_binaryValue_add_length {acc n : Nat} {text : List Char}
    (h : binaryValue acc text = some n) (j : Nat) : n.testBit (j + text.length) = acc.testBit j := by
  induction text generalizing acc j with
  | nil => rw [Option.some.inj h]; rfl
  | cons c rest ih =>
    obtain ⟨d, -, hrest⟩ := binaryValue_cons_eq_some h
    rw [List.length_cons, ← Nat.add_assoc, Nat.add_right_comm, ih hrest, ← Nat.bit_val,
      Nat.testBit_bit_succ]

/-- Character `k` is the digit of the bit as far from the right end as the character is. -/
theorem getElem?_of_binaryValue {acc n : Nat} {text : List Char} (h : binaryValue acc text = some n)
    {k : Nat} (hk : k < text.length) : text[k]? = some (digitChar (n.testBit (text.length - 1 - k))) := by
  induction text generalizing acc k with
  | nil => simp at hk
  | cons c rest ih =>
    obtain ⟨d, rfl, hrest⟩ := binaryValue_cons_eq_some h
    cases k with
    | zero =>
      have hbit := testBit_binaryValue_add_length hrest 0
      rw [← Nat.bit_val, Nat.testBit_bit_zero, Nat.zero_add] at hbit
      simp [hbit]
    | succ k =>
      rw [List.length_cons] at hk ⊢
      rw [List.getElem?_cons_succ, ih hrest (by omega)]
      congr 3
      omega

/-- Exactly these strings are refused (30_encoding.md R61). -/
theorem parseBinary_eq_error {text : List Char} {e : EncodingError} :
    parseBinary text = .error e ↔ text.length ≠ 8 ∨ ∃ c ∈ text, c ≠ '0' ∧ c ≠ '1' := by
  cases e
  rw [← binaryValue_eq_none (acc := 0), parseBinary]
  split_ifs with hlen
  · cases binaryValue 0 text <;> simp [hlen]
  · simp [hlen]

/-- What a string that parses has been read from. -/
theorem parseBinary_eq_ok {text : List Char} {b : Byte} (h : parseBinary text = .ok b) :
    text.length = 8 ∧ ∃ n, binaryValue 0 text = some n ∧ b = BitVec.ofNat 8 n := by
  unfold parseBinary at h
  split_ifs at h with hlen
  cases hn : binaryValue 0 text with
  | none => simp [hn] at h
  | some n => exact ⟨hlen, n, rfl, by simpa [hn] using h.symm⟩

/-- Character `k` of a string that parses is the digit of bit `7 - k` (30_encoding.md R60). -/
theorem getElem?_of_parseBinary {text : List Char} {b : Byte} (h : parseBinary text = .ok b)
    {k : Nat} (hk : k < 8) : text[k]? = some (digitChar (b.getLsbD (7 - k))) := by
  obtain ⟨hlen, n, hn, rfl⟩ := parseBinary_eq_ok h
  rw [getElem?_of_binaryValue hn (by omega), hlen, BitVec.getLsbD_ofNat]
  simp [show 7 - k < 8 by omega]

@[simp] theorem length_renderBinary (b : Byte) : (renderBinary b).length = 8 := rfl

/-- Digit `k` of a byte's string is that of bit `7 - k` (30_encoding.md R62). -/
theorem getElem?_renderBinary (b : Byte) {k : Nat} (hk : k < 8) :
    (renderBinary b)[k]? = some (digitChar (b.getLsbD (7 - k))) := by
  interval_cases k <;> rfl

theorem renderBinary_injective : Function.Injective renderBinary := fun b b' h => by
  apply BitVec.eq_of_getLsbD_eq
  intro i hi
  have hdigit := congrArg (·[7 - i]?) h
  simp only [getElem?_renderBinary _ (show 7 - i < 8 by omega), Option.some.injEq,
    show 7 - (7 - i) = i by omega] at hdigit
  exact digitChar_injective hdigit

theorem renderBinary_of_parseBinary {text : List Char} {b : Byte} (h : parseBinary text = .ok b) :
    renderBinary b = text := by
  obtain ⟨hlen, -⟩ := parseBinary_eq_ok h
  apply List.ext_getElem?
  intro k
  by_cases hk : k < 8
  · rw [getElem?_renderBinary b hk, getElem?_of_parseBinary h hk]
  · rw [List.getElem?_eq_none (by simp; omega), List.getElem?_eq_none (by omega)]

theorem eq_zero_or_one_of_mem_renderBinary {b : Byte} {c : Char} (h : c ∈ renderBinary b) :
    c = '0' ∨ c = '1' := by
  obtain ⟨k, hk, rfl⟩ := List.getElem_of_mem h
  have hget := getElem?_renderBinary b hk
  rw [List.getElem?_eq_getElem hk, Option.some.injEq] at hget
  rw [hget]
  exact digitChar_eq_zero_or_one _

/-- A byte's string is not refused, so it parses to a byte with that same string, which is the byte. -/
theorem parseBinary_renderBinary (b : Byte) : parseBinary (renderBinary b) = .ok b := by
  cases h : parseBinary (renderBinary b) with
  | error e =>
    rcases parseBinary_eq_error.mp h with hlen | ⟨c, hc, h0, h1⟩
    · exact absurd (length_renderBinary b) hlen
    · rcases eq_zero_or_one_of_mem_renderBinary hc with rfl | rfl
      · exact absurd rfl h0
      · exact absurd rfl h1
  | ok b' => rw [renderBinary_injective (renderBinary_of_parseBinary h)]

/-- Settles O38: rendering and parsing are inverse to each other. -/
theorem binaryStringRoundTrip : Obligations.BinaryStringRoundTrip :=
  ⟨fun b => ⟨length_renderBinary b, parseBinary_renderBinary b, fun _ hk => getElem?_renderBinary b hk⟩,
    fun _ _ h => renderBinary_of_parseBinary h⟩

/-- Settles O39: the refused strings, and each character's bit in the others. -/
theorem binaryStringMeaning : Obligations.BinaryStringMeaning := by
  refine ⟨fun text => ⟨parseBinary_eq_error, fun b h k hk => ?_⟩, parseBinary_renderBinary 0x13⟩
  rw [getElem?_of_parseBinary h hk, Option.some.injEq, digitChar_eq_one]

end Sys2Proof.Machine

/-! ### ADD (41_add.md R85): which bytes decode to it, and the step that runs one -/

namespace Sys2Proof

/-- A byte decodes to an instruction exactly if it is the instruction's two fields side by side
(30_encoding.md R51, R54). -/
theorem decode_eq_valid {b : Byte} {i : Instr} :
    decode b = .valid i ↔ b.toNat = 16 * i.opcode.toNat + i.operand.toNat := by
  constructor
  · intro h
    rw [← encode_of_decode h, encode_toNat]
  · intro h
    have hb : b = encode i := BitVec.eq_of_toNat_eq (h.trans (encode_toNat i).symm)
    rw [hb, decode_encode]

/-- The bytes of the instruction that `mk` makes of an operand, if every instruction it makes has opcode `op`
and the operand itself: the 16 bytes of that opcode. -/
theorem exists_decode_eq_valid_iff {mk : Nibble → Instr} {op : Nibble} (hop : ∀ u, (mk u).opcode = op)
    (hopd : ∀ u, (mk u).operand = u) (b : Byte) :
    (∃ u, decode b = .valid (mk u)) ↔ 16 * op.toNat ≤ b.toNat ∧ b.toNat ≤ 16 * op.toNat + 15 := by
  simp only [decode_eq_valid, hop, hopd]
  constructor
  · rintro ⟨u, hu⟩
    have := u.isLt
    omega
  · rintro ⟨hlo, hhi⟩
    refine ⟨operandOf b, ?_⟩
    rw [operandOf_toNat]
    omega

theorem exists_decode_eq_add_iff (b : Byte) : (∃ u, decode b = .valid (.add u)) ↔ b.toNat ≤ 0x0F := by
  simp [exists_decode_eq_valid_iff (mk := .add) (op := 0) (fun _ => rfl) (fun _ => rfl)]

end Sys2Proof

namespace Sys2Proof.Machine

/-- A running machine executes the instruction that the byte at `pc` decodes to (40_step_cycle.md R70). -/
theorem step_of_decode {s : State} {a : Address} {i : Instr} (hrun : s.status = .running)
    (ha : a.val = s.pc.toNat) (hi : decode (Memory.read a s.memory) = .valid i) : step s = exec i s := by
  rw [step_of_running hrun, selectInstr_valid ha hi]

/-- What `step_go` answers where the byte at `pc` decodes to an instruction: the meaning's next state and the
result that its status tells (10_state.md R23). -/
theorem stepGo_of_decode {s t : State} {a : Address} {i : Instr} (hrun : s.status = .running)
    (ha : a.val = s.pc.toNat) (hi : decode (Memory.read a s.memory) = .valid i) (ht : exec i s = .next t) :
    stepGo s = (t, some (stepResult t.status)) :=
  stepGo_of_next ((step_of_decode hrun ha hi).trans ht)

/-- A running machine that fetches an ADD byte. -/
theorem stepGo_of_add {s : State} {a : Address} (hrun : s.status = .running) (ha : a.val = s.pc.toNat)
    (hb : (Memory.read a s.memory).toNat ≤ 0x0F) :
    stepGo s = (advance (writeReg .b (aluAdd s.registerA s.registerB) s), some .continue_) := by
  obtain ⟨u, hu⟩ := (exists_decode_eq_add_iff _).mpr hb
  rw [stepGo_of_decode hrun ha hu (exec_add u s), advance_status, writeReg_b_status, hrun, stepResult]

/-- Settles O8: ADD's meaning is the formula itself, and its bytes are those of opcode 0. -/
theorem addWritesTheSumToB : Obligations.AddWritesTheSumToB :=
  ⟨exec_add, fun b => (exists_decode_eq_add_iff b).symm, encode_add 0, fun _ _ => stepGo_of_add⟩

end Sys2Proof.Machine

/-! ### LOAD_A and LOAD_B (42_load_immediate.md R90, R91): the exact next state, the bytes, and the bound on A -/

namespace Sys2Proof

theorem decode_eq_loadA_iff (b : Byte) (n : Nibble) : decode b = .valid (.loadA n) ↔ b.toNat = 0x10 + n.toNat :=
  decode_eq_valid

theorem decode_eq_loadB_iff (b : Byte) (n : Nibble) : decode b = .valid (.loadB n) ↔ b.toNat = 0x20 + n.toNat :=
  decode_eq_valid

end Sys2Proof

namespace Sys2Proof.Machine

theorem zeroExtend8_eq_ofNat (n : Nibble) : zeroExtend8 n = BitVec.ofNat 8 n.toNat :=
  (BitVec.ofNat_toNat 8 n).symm

/-- The formula of R90: A takes the immediate, `pc` advances, and every other field is as before. -/
theorem exec_loadA_eq_ofNat (n : Nibble) (s : State) :
    exec (.loadA n) s = .next { s with
      registerA := BitVec.ofNat 8 n.toNat
      pc := BitVec.ofNat 8 ((s.pc.toNat + 1) % 256) } := by
  rw [exec_loadA, zeroExtend8_eq_ofNat]
  rfl

/-- The formula of R91: B takes the immediate, `pc` advances, and every other field is as before. -/
theorem exec_loadB_eq_ofNat (n : Nibble) (s : State) :
    exec (.loadB n) s = .next { s with
      registerB := BitVec.ofNat 8 n.toNat
      pc := BitVec.ofNat 8 ((s.pc.toNat + 1) % 256) } := by
  rw [exec_loadB, zeroExtend8_eq_ofNat]
  rfl

/-- A running machine reports `Continue` for a fetched instruction whose meaning keeps the status
(40_step_cycle.md R78). -/
theorem stepGo_continue_of_decode {s t : State} {a : Address} {i : Instr} (hrun : s.status = .running)
    (ha : a.val = s.pc.toNat) (hi : decode (Memory.read a s.memory) = .valid i) (ht : exec i s = .next t)
    (hstatus : t.status = s.status) : stepGo s = (t, some .continue_) := by
  rw [stepGo_of_decode hrun ha hi ht, hstatus, hrun, stepResult]

/-- Only LOAD_A writes A (10_state.md R11), so an instruction leaves in A what was there or an immediate. -/
theorem exec_registerA_eq_or_immediate {i : Instr} {s t : State} (h : exec i s = .next t) :
    t.registerA = s.registerA ∨ ∃ n, t.registerA = zeroExtend8 n := by
  rcases exec_next_cases h with ⟨u, -, rfl⟩ | ⟨n, -, rfl⟩ | ⟨n, -, rfl⟩ | ⟨u, -, rfl⟩
  · exact .inl rfl
  · exact .inr ⟨n, rfl⟩
  · exact .inl rfl
  · exact .inl rfl

/-- A fault leaves A, so a step too leaves in A what was there or an immediate. -/
theorem step_registerA_eq_or_immediate {s t : State} (h : step s = .next t) :
    t.registerA = s.registerA ∨ ∃ n, t.registerA = zeroExtend8 n := by
  obtain ⟨-, ⟨-, rfl⟩ | ⟨a, -, opcode, -, rfl⟩ | ⟨a, -, i, -, hexec⟩⟩ := step_next_cases h
  · exact .inl rfl
  · exact .inl rfl
  · exact exec_registerA_eq_or_immediate hexec

/-- No step takes A above 15 (10_state.md R11): an immediate is at most 15. -/
theorem step_registerA_le {s t : State} (hs : s.registerA.toNat ≤ 15) (h : step s = .next t) :
    t.registerA.toNat ≤ 15 := by
  rcases step_registerA_eq_or_immediate h with hA | ⟨n, hA⟩
  · rwa [hA]
  · rw [hA, zeroExtend8_toNat]
    exact Nat.le_of_lt_succ n.isLt

/-- Settles O9: LOAD_A's meaning is the formula itself, its bytes are those of opcode 1, and A only ever takes
immediates. -/
theorem loadAWritesTheImmediateToA : Obligations.LoadAWritesTheImmediateToA := by
  refine ⟨exec_loadA_eq_ofNat, decode_eq_loadA_iff, fun s a n hrun ha hb => ?_, fun _ _ => step_registerA_le⟩
  exact stepGo_continue_of_decode hrun ha ((decode_eq_loadA_iff _ n).mpr hb) (exec_loadA_eq_ofNat n s) rfl

/-- Settles O10: LOAD_B's meaning is the formula itself, and its bytes are those of opcode 2. -/
theorem loadBWritesTheImmediateToB : Obligations.LoadBWritesTheImmediateToB := by
  refine ⟨exec_loadB_eq_ofNat, decode_eq_loadB_iff, fun s a n hrun ha hb => ?_⟩
  exact stepGo_continue_of_decode hrun ha ((decode_eq_loadB_iff _ n).mpr hb) (exec_loadB_eq_ofNat n s) rfl

end Sys2Proof.Machine

/-! ### HALT (43_halt.md R96): the exact next state, the bytes, and the idle machine after it -/

namespace Sys2Proof

theorem exists_decode_eq_halt_iff (b : Byte) :
    (∃ u, decode b = .valid (.halt u)) ↔ 0x30 ≤ b.toNat ∧ b.toNat ≤ 0x3F :=
  exists_decode_eq_valid_iff (mk := .halt) (op := 3) (fun _ => rfl) (fun _ => rfl) b

end Sys2Proof

namespace Sys2Proof.Machine

/-- Every state without a step answers the stop that its status names (40_step_cycle.md R79). -/
theorem step_of_noStep {s : State} {r : Fault} (h : noStep s.status = some r) : step s = .fault r := by
  rw [step, h]

/-- In a terminal state `step_go` changes and reports nothing (10_state.md R21). -/
theorem stepGo_of_noStep {s : State} {r : Fault} (h : noStep s.status = some r) : stepGo s = (s, none) :=
  stepGo_of_fault (step_of_noStep h)

/-- A terminal state is latched: any number of `step_go` events leave it as it is (40_step_cycle.md R84). -/
theorem stepGoTimes_of_noStep {s : State} {r : Fault} (h : noStep s.status = some r) (k : Nat) :
    stepGoTimes k s = s := by
  induction k with
  | zero => rfl
  | succ k ih => rw [stepGoTimes, stepGo_of_noStep h, ih]

theorem noStep_of_halted {s : State} (h : s.status = .halted) : noStep s.status = some .noStepHalted := by
  rw [h, noStep]

/-- A running machine that fetches a HALT byte. -/
theorem stepGo_of_halt {s : State} {a : Address} (hrun : s.status = .running) (ha : a.val = s.pc.toNat)
    (hlo : 0x30 ≤ (Memory.read a s.memory).toNat) (hhi : (Memory.read a s.memory).toNat ≤ 0x3F) :
    stepGo s = ({ advance s with status := .halted }, some .halt) := by
  obtain ⟨u, hu⟩ := (exists_decode_eq_halt_iff _).mpr ⟨hlo, hhi⟩
  exact stepGo_of_decode hrun ha hu (exec_halt u s)

/-- Settles O11: HALT's meaning is the formula itself, its bytes are those of opcode 3, a halted state has no
step, and reset asks for no status. -/
theorem haltAdvancesAndStops : Obligations.HaltAdvancesAndStops := by
  refine ⟨exec_halt, fun b => (exists_decode_eq_halt_iff b).symm, encode_halt 0, fun _ _ => stepGo_of_halt,
    fun s k h => ?_, fun s image _ hfits => ⟨_, hostReset_of_fits hfits s, rfl⟩⟩
  have hstop := noStep_of_halted h
  exact ⟨stepGo_of_noStep hstop, stepGoTimes_of_noStep hstop k⟩

end Sys2Proof.Machine

/-! ### The program load (70_reset_and_hazards.md R122): every cell after a reset -/

namespace Sys2Proof.Machine

theorem imageByte_of_lt {image : List Byte} {a : Address} (h : a.val < image.length) :
    imageByte image a = image[a.val] :=
  (List.getElem_eq_getD Config.zeroFill).symm

theorem imageByte_of_le {image : List Byte} {a : Address} (h : image.length ≤ a.val) :
    imageByte image a = 0 :=
  List.getD_eq_default image Config.zeroFill h

/-- A reset leaves in every cell what the loader writes there, whatever the earlier memory. -/
theorem read_of_hostReset {image : List Byte} {s t : State} (h : hostReset image s = .next t) (a : Address) :
    Memory.read a t.memory = imageByte image a := by
  obtain ⟨-, rfl⟩ := hostReset_next h
  rw [loadImage_read]

/-- Settles O25: an image that fits is loaded, and a cell holds the image's byte below its end and 0 from there
on. -/
theorem programLoadFillsMemory : Obligations.ProgramLoadFillsMemory := by
  intro image s hfits
  have hreset := hostReset_of_fits hfits s
  refine ⟨_, hreset, fun a => ?_⟩
  rw [read_of_hostReset hreset]
  split
  · next hlt => exact imageByte_of_lt hlt
  · next hge => exact imageByte_of_le (Nat.le_of_not_lt hge)

end Sys2Proof.Machine

/-! ### The invalid bytes, and the ranges of all of them (30_encoding.md R54, R56, R58) -/

namespace Sys2Proof

theorem opcodeOf_eq_ofNat (b : Byte) : opcodeOf b = BitVec.ofNat 4 (b.toNat / 16) := by
  rw [← opcodeOf_toNat, BitVec.ofNat_toNat, BitVec.setWidth_eq]

theorem opcodeWf_opcodeOf (b : Byte) : opcodeWf (opcodeOf b) = true ↔ b.toNat < 0x40 := by
  simp only [opcodeWf, opcodeOf_toNat, Config.definedOpcodes, decide_eq_true_eq]
  omega

/-- A byte decodes to an instruction exactly below 0x40. -/
theorem exists_decode_eq_valid {b : Byte} : (∃ i, decode b = .valid i) ↔ b.toNat < 0x40 := by
  constructor
  · rintro ⟨i, hi⟩
    have hb := decode_eq_valid.mp hi
    have hop : i.opcode.toNat ≤ 3 := by cases i <;> simp [Instr.opcode]
    have := i.operand.isLt
    omega
  · intro h
    unfold decode
    rw [if_pos ((opcodeWf_opcodeOf b).mpr h)]
    split_ifs <;> exact ⟨_, rfl⟩

/-- A byte from 0x40 on is invalid and named by its opcode (30_encoding.md R58). -/
theorem decode_of_ge {b : Byte} (h : 0x40 ≤ b.toNat) : decode b = .invalid (opcodeOf b) := by
  rw [decode, if_neg ((opcodeWf_opcodeOf b).not.mpr (Nat.not_lt.mpr h))]

/-- An invalid byte is one from 0x40 on, and its opcode is on record. -/
theorem decode_eq_invalid {b : Byte} {op : Nibble} :
    decode b = .invalid op ↔ 0x40 ≤ b.toNat ∧ op = opcodeOf b := by
  constructor
  · intro h
    have hb : 0x40 ≤ b.toNat := by
      by_contra hlt
      obtain ⟨i, hi⟩ := exists_decode_eq_valid.mpr (Nat.lt_of_not_le hlt)
      simp [hi] at h
    rw [decode_of_ge hb] at h
    exact ⟨hb, (Decoded.invalid.inj h).symm⟩
  · rintro ⟨hb, rfl⟩
    exact decode_of_ge hb

end Sys2Proof

/-! ### What every instruction keeps (10_state.md R11, R18; 20_memory.md R35; 40_step_cycle.md R76) -/

namespace Sys2Proof.Machine

theorem exists_exec_eq_next (i : Instr) (s : State) : ∃ t, exec i s = .next t := by
  cases i <;> exact ⟨_, rfl⟩

theorem exec_memory {i : Instr} {s t : State} (h : exec i s = .next t) : t.memory = s.memory := by
  rcases exec_next_cases h with ⟨_, -, rfl⟩ | ⟨_, -, rfl⟩ | ⟨_, -, rfl⟩ | ⟨_, -, rfl⟩ <;> rfl

theorem exec_pc {i : Instr} {s t : State} (h : exec i s = .next t) : t.pc = incrementPc s.pc := by
  rcases exec_next_cases h with ⟨_, -, rfl⟩ | ⟨_, -, rfl⟩ | ⟨_, -, rfl⟩ | ⟨_, -, rfl⟩ <;> rfl

theorem exec_faultRecord {i : Instr} {s t : State} (h : exec i s = .next t) :
    t.faultCause = s.faultCause ∧ t.faultOpcode = s.faultOpcode ∧ t.faultPc = s.faultPc := by
  rcases exec_next_cases h with ⟨_, -, rfl⟩ | ⟨_, -, rfl⟩ | ⟨_, -, rfl⟩ | ⟨_, -, rfl⟩ <;>
    exact ⟨rfl, rfl, rfl⟩

/-- HALT, opcode 3, is the one instruction that writes the status. -/
theorem exec_status {i : Instr} {s t : State} (h : exec i s = .next t) :
    t.status = if i.opcode = 3 then .halted else s.status := by
  rcases exec_next_cases h with ⟨_, rfl, rfl⟩ | ⟨_, rfl, rfl⟩ | ⟨_, rfl, rfl⟩ | ⟨_, rfl, rfl⟩ <;> rfl

/-- No instruction takes a fault (60_exceptions.md R106: the tests come before it). -/
theorem exec_status_ne_faulted {i : Instr} {s t : State} (hs : s.status ≠ .faulted) (h : exec i s = .next t) :
    t.status ≠ .faulted := by
  rw [exec_status h]
  split
  · simp
  · exact hs

end Sys2Proof.Machine

/-! ### The outcomes of a step: none, completed, or faulted (40_step_cycle.md R70, R77, R79) -/

namespace Sys2Proof.Machine

theorem running_or_terminal (s : State) : s.status = .running ∨ Terminal s := by
  cases h : s.status with
  | running => exact .inl rfl
  | halted => exact .inr (.inl h)
  | faulted => exact .inr (.inr h)

theorem not_terminal_of_running {s : State} (h : s.status = .running) : ¬ Terminal s := by
  simp [Terminal, h]

theorem noStep_of_faulted {s : State} (h : s.status = .faulted) : noStep s.status = some .noStepFaulted := by
  rw [h, noStep]

theorem Terminal.exists_noStep {s : State} (h : Terminal s) : ∃ r, noStep s.status = some r := by
  rcases h with hh | hf
  · exact ⟨_, noStep_of_halted hh⟩
  · exact ⟨_, noStep_of_faulted hf⟩

theorem Terminal.stepGo {s : State} (h : Terminal s) : stepGo s = (s, none) := by
  obtain ⟨r, hr⟩ := h.exists_noStep
  exact stepGo_of_noStep hr

theorem Terminal.stepGoTimes {s : State} (h : Terminal s) (k : Nat) : stepGoTimes k s = s := by
  obtain ⟨r, hr⟩ := h.exists_noStep
  exact stepGoTimes_of_noStep hr k

/-- A step from 255 takes the fault of the range test (40_step_cycle.md R71). -/
theorem step_at_255 {s : State} (hrun : s.status = .running) (hpc : s.pc = 255) :
    step s = .next (raiseFault .fetchOutOfRange 0 s) := by
  rw [step_of_running hrun, selectInstr_at_255 hpc]

/-- What the byte fetched makes of a state: the phases after the fetch (40_step_cycle.md R73 to R78). -/
def runByte (b : Byte) (s : State) : Host.Outcome State Fault Refusal :=
  match decode b with
  | .valid i => exec i s
  | .invalid opcode => .next (raiseFault .unknownInstruction opcode s)

theorem runByte_of_valid {b : Byte} {i : Instr} (h : decode b = .valid i) (s : State) : runByte b s = exec i s := by
  rw [runByte, h]

theorem runByte_of_ge {b : Byte} (h : 0x40 ≤ b.toNat) (s : State) :
    runByte b s = .next (raiseFault .unknownInstruction (opcodeOf b) s) := by
  rw [runByte, decode_of_ge h]

/-- A running machine with a cell at `pc` runs the byte of that cell. -/
theorem step_at_cell {s : State} {a : Address} (hrun : s.status = .running) (ha : a.val = s.pc.toNat) :
    step s = runByte (Memory.read a s.memory) s := by
  rcases Nat.lt_or_ge (Memory.read a s.memory).toNat 0x40 with hlt | hge
  · obtain ⟨i, hi⟩ := exists_decode_eq_valid.mpr hlt
    rw [runByte_of_valid hi, step_of_decode hrun ha hi]
  · rw [runByte_of_ge hge, step_of_running hrun, selectInstr_invalid ha (decode_of_ge hge)]

theorem exists_runByte_eq_next (b : Byte) (s : State) : ∃ t, runByte b s = .next t := by
  unfold runByte
  split
  · exact exists_exec_eq_next _ s
  · exact ⟨_, rfl⟩

/-- A running machine always has a step (40_step_cycle.md R79). -/
theorem exists_step_of_running {s : State} (hrun : s.status = .running) : ∃ t, step s = .next t := by
  rcases pc_cases s with hpc | ⟨a, ha⟩
  · exact ⟨_, step_at_255 hrun hpc⟩
  · rw [step_at_cell hrun ha]
    exact exists_runByte_eq_next _ s

theorem running_of_step {s t : State} (h : step s = .next t) : s.status = .running := (step_next_cases h).1

/-- A step that does not end in a fault has executed the instruction at `pc`. -/
theorem exec_of_step_of_not_faulted {s t : State} (h : step s = .next t) (ht : t.status ≠ .faulted) :
    ∃ a : Address, a.val = s.pc.toNat ∧ ∃ i, decode (Memory.read a s.memory) = .valid i ∧ exec i s = .next t := by
  obtain ⟨-, ⟨-, rfl⟩ | ⟨_, -, _, -, rfl⟩ | hexec⟩ := step_next_cases h
  · exact absurd rfl ht
  · exact absurd rfl ht
  · exact hexec

/-- A step that ends in a fault has taken one of the two, and nothing else (60_exceptions.md R104). -/
theorem raiseFault_of_step_of_faulted {s t : State} (h : step s = .next t) (ht : t.status = .faulted) :
    (s.pc = 255 ∧ t = raiseFault .fetchOutOfRange 0 s) ∨
      ∃ a : Address, a.val = s.pc.toNat ∧ 0x40 ≤ (Memory.read a s.memory).toNat ∧
        t = raiseFault .unknownInstruction (opcodeOf (Memory.read a s.memory)) s := by
  obtain ⟨hrun, h255 | ⟨a, ha, op, hd, rfl⟩ | ⟨a, -, i, -, hexec⟩⟩ := step_next_cases h
  · exact .inl h255
  · obtain ⟨hge, rfl⟩ := decode_eq_invalid.mp hd
    exact .inr ⟨a, ha, hge, rfl⟩
  · exact absurd ht (exec_status_ne_faulted (by simp [hrun]) hexec)

theorem step_memory {s t : State} (h : step s = .next t) : t.memory = s.memory := by
  obtain ⟨-, ⟨-, rfl⟩ | ⟨_, -, _, -, rfl⟩ | ⟨_, -, _, -, hexec⟩⟩ := step_next_cases h
  · rfl
  · rfl
  · exact exec_memory hexec

/-- There is no cell at 255 (20_memory.md R33). -/
theorem pc_ne_255_of_cell {s : State} {a : Address} (ha : a.val = s.pc.toNat) : s.pc ≠ 255 := by
  intro h255
  rw [h255] at ha
  exact a.isLt.ne ha

theorem incrementPc_toNat_of_cell {pc : Byte} {a : Address} (ha : a.val = pc.toNat) :
    (incrementPc pc).toNat = pc.toNat + 1 := by
  have := a.isLt
  rw [incrementPc_toNat]
  omega

/-- A step that succeeds starts at a cell, so its advance does not wrap (40_step_cycle.md R77). -/
theorem step_pc_of_not_faulted {s t : State} (h : step s = .next t) (ht : t.status ≠ .faulted) :
    t.pc.toNat = s.pc.toNat + 1 := by
  obtain ⟨a, ha, i, -, hexec⟩ := exec_of_step_of_not_faulted h ht
  rw [exec_pc hexec, incrementPc_toNat_of_cell ha]

theorem step_pc_of_faulted {s t : State} (h : step s = .next t) (ht : t.status = .faulted) : t.pc = s.pc := by
  rcases raiseFault_of_step_of_faulted h ht with ⟨-, rfl⟩ | ⟨_, -, -, rfl⟩ <;> rfl

theorem step_faultRecord_of_not_faulted {s t : State} (h : step s = .next t) (ht : t.status ≠ .faulted) :
    t.faultCause = s.faultCause ∧ t.faultOpcode = s.faultOpcode ∧ t.faultPc = s.faultPc := by
  obtain ⟨a, -, i, -, hexec⟩ := exec_of_step_of_not_faulted h ht
  exact exec_faultRecord hexec

end Sys2Proof.Machine

/-! ### Images and instructions: loading what was encoded (70_reset_and_hazards.md R122, 20_memory.md R42) -/

namespace Sys2Proof.Machine

/-- The bytes of a list of instructions continue past its end as the encodings of ADD with operand 0 do. -/
theorem imageByte_map_encode (instrs : List Instr) (a : Address) :
    imageByte (instrs.map encode) a = encode (instrs.getD a.val (.add 0)) :=
  List.getD_map instrs (.add 0) encode

/-- Settles O5: each cell holds the encoding of its instruction, which decodes back. -/
theorem loadedInstructionsDecodeInPlace : Obligations.LoadedInstructionsDecodeInPlace := by
  intro instrs s hfits
  have hreset := hostReset_of_fits (image := instrs.map encode) (by simpa using hfits) s
  refine ⟨_, hreset, fun a => ?_⟩
  rw [read_of_hostReset hreset, imageByte_map_encode, decode_encode]

/-- Settles O4. -/
theorem decodeEncodeAgree : Obligations.DecodeEncodeAgree :=
  ⟨fun i _ => decode_encode i, fun _ _ => encode_of_decode⟩

end Sys2Proof.Machine

/-! ### The invariant of reachable states (10_state.md R26) -/

namespace Sys2Proof.Machine

theorem FaultRecordEmpty.step {s t : State} (hs : FaultRecordEmpty s) (h : step s = .next t)
    (ht : t.status ≠ .faulted) : FaultRecordEmpty t := by
  obtain ⟨hcause, hopcode, hpc⟩ := step_faultRecord_of_not_faulted h ht
  rwa [FaultRecordEmpty, hcause, hopcode, hpc]

/-- A step that halts has executed a HALT, which is now just before `pc`. -/
theorem justAfterHalt_of_step {s t : State} (h : step s = .next t) (ht : t.status = .halted) :
    JustAfterHalt t := by
  have hnf : t.status ≠ .faulted := by simp [ht]
  obtain ⟨a, ha, i, hd, hexec⟩ := exec_of_step_of_not_faulted h hnf
  have hop : i.opcode = 3 := by
    rw [exec_status hexec, running_of_step h] at ht
    split_ifs at ht with hop
    exact hop
  refine ⟨a, by rw [step_pc_of_not_faulted h hnf, ha], ?_⟩
  rw [step_memory h, ← (fields_of_decode hd).1, hop]

/-- A step that faults records the byte at `pc`, or that there is none (10_state.md R17). -/
theorem faultRecordTruthful_of_step {s t : State} (h : step s = .next t) (ht : t.status = .faulted) :
    FaultRecordTruthful t := by
  rcases raiseFault_of_step_of_faulted h ht with ⟨hpc, rfl⟩ | ⟨a, ha, hge, rfl⟩
  · exact ⟨rfl, .inr ⟨rfl, hpc, rfl⟩⟩
  · refine ⟨rfl, .inl ⟨rfl, _, fetch_of_address ha, rfl, ?_⟩⟩
    rw [raiseFault_memory, opcodeOf_toNat]
    omega

theorem ReachableInv.step {s t : State} (hs : ReachableInv s) (h : step s = .next t) : ReachableInv t where
  memoryWf := by rw [step_memory h]; exact hs.memoryWf
  registerA_le := step_registerA_le hs.registerA_le h
  running ht := (hs.running (running_of_step h)).step h (by simp [ht])
  halted ht := ⟨justAfterHalt_of_step h ht, (hs.running (running_of_step h)).step h (by simp [ht])⟩
  faulted ht := faultRecordTruthful_of_step h ht

/-- Settles O30: field by field, from what a completed and what a faulting step leave. -/
theorem everyStepKeepsTheInvariant : Obligations.EveryStepKeepsTheInvariant := fun _ _ hs h => hs.step h

end Sys2Proof.Machine

/-! ### One instruction and one step: frames, `pc`, the result reported, the end of a run -/

namespace Sys2Proof.Machine

/-- Settles O13: what all instructions keep, and the one field that each family writes. -/
theorem instructionFrames : Obligations.InstructionFrames := by
  intro i s t h
  obtain ⟨hcause, hopcode, hpc⟩ := exec_faultRecord h
  refine ⟨fun a => by rw [exec_memory h], hcause, hopcode, hpc, ?_⟩
  rcases exec_next_cases h with ⟨u, rfl, rfl⟩ | ⟨n, rfl, rfl⟩ | ⟨n, rfl, rfl⟩ | ⟨u, rfl, rfl⟩
  · exact ⟨fun _ => rfl, fun hadd => absurd rfl (hadd u), fun _ => rfl⟩
  · exact ⟨fun hloadA => absurd rfl (hloadA n), fun _ _ => rfl, fun _ => rfl⟩
  · exact ⟨fun _ => rfl, fun _ hloadB => absurd rfl (hloadB n), fun _ => rfl⟩
  · exact ⟨fun _ => rfl, fun _ _ => rfl, fun hhalt => absurd rfl (hhalt u)⟩

/-- Settles O17. -/
theorem pcAdvancesByOne : Obligations.PcAdvancesByOne :=
  ⟨fun _ s _ h => by rw [exec_pc h, incrementPc_toNat], fun _ _ => step_pc_of_not_faulted,
    fun _ _ => step_pc_of_faulted⟩

/-- Settles O16: every instruction is well-formed, so the premise on it is not used. -/
theorem stepRunsTheDecodedInstruction : Obligations.StepRunsTheDecodedInstruction :=
  fun _ _ _ hrun ha hd _ => step_of_decode hrun ha hd

/-- Settles O12. -/
theorem loadsDifferOnlyInDestination : Obligations.LoadsDifferOnlyInDestination := fun n s =>
  ⟨_, _, exec_loadA n s, exec_loadB n s, by simp, by simp, rfl⟩

theorem stepResult_injective : Function.Injective stepResult := by
  intro r r' h
  cases r <;> cases r' <;> simp [stepResult] at h ⊢

/-- A running machine reports the result that the status after the step tells (10_state.md R23). -/
theorem stepGo_result {s : State} (hrun : s.status = .running) :
    (stepGo s).2 = some (stepResult (stepGo s).1.status) := by
  obtain ⟨t, ht⟩ := exists_step_of_running hrun
  rw [stepGo_of_next ht]

theorem stepGo_result_eq_iff {s : State} (hrun : s.status = .running) (r : RunStatus) :
    (stepGo s).2 = some (stepResult r) ↔ (stepGo s).1.status = r := by
  rw [stepGo_result hrun, Option.some.injEq, stepResult_injective.eq_iff]

/-- The status that a byte leads to, by its opcode (40_step_cycle.md R78, 60_exceptions.md R101). -/
def statusAfter (opcode : Nibble) : RunStatus :=
  if opcode.toNat < 3 then .running else if opcode.toNat = 3 then .halted else .faulted

theorem runByte_status {b : Byte} {s t : State} (hrun : s.status = .running) (h : runByte b s = .next t) :
    t.status = statusAfter (opcodeOf b) := by
  rcases Nat.lt_or_ge b.toNat 0x40 with hlt | hge
  · obtain ⟨i, hi⟩ := exists_decode_eq_valid.mpr hlt
    rw [runByte_of_valid hi] at h
    rw [exec_status h, ← (fields_of_decode hi).1, hrun]
    cases i <;> rfl
  · rw [runByte_of_ge hge] at h
    cases h
    have hop := opcodeOf_toNat b
    rw [raiseFault_status, statusAfter, if_neg (by omega), if_neg (by omega)]

theorem stepGo_status {s : State} {a : Address} (hrun : s.status = .running) (ha : a.val = s.pc.toNat) :
    (stepGo s).1.status = statusAfter (opcodeOf (Memory.read a s.memory)) := by
  obtain ⟨t, ht⟩ := exists_step_of_running hrun
  rw [stepGo_of_next ht]
  exact runByte_status hrun ((step_at_cell hrun ha).symm.trans ht)

theorem statusAfter_eq_running {op : Nibble} : statusAfter op = .running ↔ op.toNat < 3 := by
  unfold statusAfter
  split_ifs <;> simp <;> omega

theorem statusAfter_eq_halted {op : Nibble} : statusAfter op = .halted ↔ op.toNat = 3 := by
  unfold statusAfter
  split_ifs <;> simp <;> omega

theorem statusAfter_eq_faulted {op : Nibble} : statusAfter op = .faulted ↔ 4 ≤ op.toNat := by
  unfold statusAfter
  split_ifs <;> simp <;> omega

/-- Settles O18: the result and the status after the step tell each other, and the opcode tells the status. -/
theorem stepResultTellsWhatRan : Obligations.StepResultTellsWhatRan := by
  intro s a hrun ha
  have hresult := stepGo_result_eq_iff hrun
  have hstatus := stepGo_status hrun ha
  refine ⟨(hresult .running).trans ?_, (hresult .halted).trans ?_, (hresult .faulted).trans ?_,
    hresult .running, hresult .halted, hresult .faulted⟩
  · rw [hstatus, statusAfter_eq_running]
  · rw [hstatus, statusAfter_eq_halted]
  · rw [hstatus, statusAfter_eq_faulted]

/-- Settles O19. -/
theorem onlyTerminalStatesHaveNoStep : Obligations.OnlyTerminalStatesHaveNoStep :=
  ⟨fun _ => exists_step_of_running, fun _ h => step_of_noStep (noStep_of_halted h),
    fun _ h => step_of_noStep (noStep_of_faulted h), fun _ k h => ⟨h.stepGo, h.stepGoTimes k⟩,
    fun s _ _ hfits => ⟨_, hostReset_of_fits hfits s, rfl⟩⟩

/-- Settles O23. -/
theorem faultingStepChangesNoMachineState : Obligations.FaultingStepChangesNoMachineState := by
  intro s t h ht
  rcases raiseFault_of_step_of_faulted h ht with ⟨hpc, rfl⟩ | ⟨a, ha, -, rfl⟩
  · exact ⟨rfl, rfl, rfl, rfl, rfl, .inr ⟨rfl, hpc⟩⟩
  · exact ⟨rfl, rfl, rfl, rfl, rfl, .inl ⟨rfl, pc_ne_255_of_cell ha⟩⟩

/-- Settles O24: a halting step is one that completes. -/
theorem haltIsNotAFault : Obligations.HaltIsNotAFault := by
  refine fun s t h => ⟨fun ht => ?_, fun ht => ⟨step_pc_of_faulted h ht, ?_⟩⟩
  · have hnf : t.status ≠ .faulted := by simp [ht]
    exact ⟨step_pc_of_not_faulted h hnf, step_faultRecord_of_not_faulted h hnf⟩
  · rcases raiseFault_of_step_of_faulted h ht with ⟨-, rfl⟩ | ⟨_, -, -, rfl⟩ <;> simp

/-- Only a fault writes the cause (60_exceptions.md R104). -/
theorem faulted_of_step_of_faultCause_ne {s t : State} (h : step s = .next t)
    (hcause : t.faultCause ≠ s.faultCause) : t.status = .faulted := by
  by_contra ht
  exact hcause (step_faultRecord_of_not_faulted h ht).1

/-- Settles O22: the fault of the range test, and no other step leaves its cause where none was. -/
theorem fetchAt255RaisesFetchOutOfRange : Obligations.FetchAt255RaisesFetchOutOfRange := by
  refine ⟨fun s hrun hpc => ⟨?_, ?_⟩, fun s t hnone h hcause => ?_⟩
  · rw [step_at_255 hrun hpc, raiseFault, hpc]
  · rw [stepGo_of_next (step_at_255 hrun hpc)]
    rfl
  · have ht := faulted_of_step_of_faultCause_ne h (by simp [hnone, hcause])
    rcases raiseFault_of_step_of_faulted h ht with ⟨hpc, -⟩ | ⟨_, -, -, rfl⟩
    · exact hpc
    · simp at hcause

end Sys2Proof.Machine

/-! ### A step and the memory it does not read (20_memory.md R34, R37; 30_encoding.md R56, R57) -/

namespace Sys2Proof.Machine

theorem exec_withMemory {i : Instr} {s t : State} (h : exec i s = .next t) (m : Memory) :
    exec i { s with memory := m } = .next { t with memory := m } := by
  rcases exec_next_cases h with ⟨_, rfl, rfl⟩ | ⟨_, rfl, rfl⟩ | ⟨_, rfl, rfl⟩ | ⟨_, rfl, rfl⟩ <;> rfl

/-- The phases after the fetch read no memory. -/
theorem runByte_withMemory {b : Byte} {s t : State} (h : runByte b s = .next t) (m : Memory) :
    runByte b { s with memory := m } = .next { t with memory := m } := by
  unfold runByte at h ⊢
  split at h
  · exact exec_withMemory h m
  · cases h
    rfl

/-- Only the opcodes 1 and 2, of the loads, have an operand that counts (30_encoding.md R56, R57). -/
theorem runByte_congr {b c : Byte} (hop : opcodeOf b = opcodeOf c) (h1 : opcodeOf b ≠ 1)
    (h2 : opcodeOf b ≠ 2) : runByte b = runByte c := by
  funext s
  rw [hop] at h1 h2
  simp only [runByte, decode, hop, h1, h2, if_false]
  split_ifs <;> rfl

/-- A step depends on memory only through what the byte at `pc` does, if there is one. -/
theorem step_withMemory {s t : State} {m : Memory} (h : step s = .next t)
    (hm : ∀ a : Address, a.val = s.pc.toNat → runByte (Memory.read a m) = runByte (Memory.read a s.memory)) :
    step { s with memory := m } = .next { t with memory := m } := by
  have hrun := running_of_step h
  rcases pc_cases s with hpc | ⟨a, ha⟩
  · rw [step_at_255 hrun hpc] at h
    cases h
    exact step_at_255 (s := { s with memory := m }) hrun hpc
  · rw [step_at_cell hrun ha] at h
    rw [step_at_cell (s := { s with memory := m }) hrun ha]
    simp only [hm a ha]
    exact runByte_withMemory h m

theorem noStep_of_step_eq_fault {s : State} {r : Fault} (h : step s = .fault r) : noStep s.status = some r := by
  rcases running_or_terminal s with hrun | hterm
  · obtain ⟨t, ht⟩ := exists_step_of_running hrun
    simp [ht] at h
  · obtain ⟨r', hr'⟩ := hterm.exists_noStep
    rw [step_of_noStep hr'] at h
    cases h
    exact hr'

/-- Settles O36: the cell at `pc` reads the same, and a stop is told by the status alone. -/
theorem stepReadsOnlyTheFetchedCell : Obligations.StepReadsOnlyTheFetchedCell := fun s m hm =>
  ⟨fun _ h => step_withMemory h fun a ha => by rw [hm a ha],
    fun _ h => step_of_noStep (s := { s with memory := m }) (noStep_of_step_eq_fault (s := s) h)⟩

/-- A running machine that fetches a byte from 0x40 on. -/
theorem step_of_invalid {s : State} {a : Address} (hrun : s.status = .running) (ha : a.val = s.pc.toNat)
    (hge : 0x40 ≤ (Memory.read a s.memory).toNat) :
    step s = .next (raiseFault .unknownInstruction (opcodeOf (Memory.read a s.memory)) s) := by
  rw [step_at_cell hrun ha, runByte_of_ge hge]

/-- Settles O21: the fault of the validity test, taken for the bytes from 0x40 on alone, and only for the byte
at `pc`. -/
theorem invalidByteRaisesUnknownInstruction : Obligations.InvalidByteRaisesUnknownInstruction := by
  refine ⟨fun s a hrun ha hge => ?_, fun s a hrun ha hlt => ?_, fun s t hnone h hcause => ?_,
    fun s t a v hne h => ?_⟩
  · have hstep := step_of_invalid hrun ha hge
    rw [stepGo_of_next hstep, hstep, opcodeOf_eq_ofNat]
    exact ⟨rfl, rfl, step_of_noStep rfl⟩
  · obtain ⟨i, hi⟩ := exists_decode_eq_valid.mpr hlt
    obtain ⟨t, ht⟩ := exists_exec_eq_next i s
    exact ⟨t, (step_of_decode hrun ha hi).trans ht, exec_status_ne_faulted (by simp [hrun]) ht⟩
  · have ht := faulted_of_step_of_faultCause_ne h (by simp [hnone, hcause])
    rcases raiseFault_of_step_of_faulted h ht with ⟨-, rfl⟩ | ⟨a, ha, hge, -⟩
    · simp at hcause
    · exact ⟨a, ha, hge⟩
  · refine step_withMemory h fun b hb => ?_
    rw [Memory.read_write_other v s.memory (by rintro rfl; exact hne hb)]

end Sys2Proof.Machine

/-! ### Runs: `step_go` events in turn (40_step_cycle.md R83, R84) -/

namespace Sys2Proof.Machine

/-- A `step_go` takes the step there is, or leaves a terminal state alone. -/
theorem stepGo_cases (s : State) : step s = .next (stepGo s).1 ∨ (Terminal s ∧ (stepGo s).1 = s) := by
  rcases running_or_terminal s with hrun | hterm
  · obtain ⟨t, ht⟩ := exists_step_of_running hrun
    rw [stepGo_of_next ht]
    exact .inl ht
  · exact .inr ⟨hterm, by rw [hterm.stepGo]⟩

@[simp] theorem stepGo_memory (s : State) : (stepGo s).1.memory = s.memory := by
  rcases stepGo_cases s with h | ⟨-, h⟩
  · exact step_memory h
  · rw [h]

@[simp] theorem stepGoTimes_memory (k : Nat) (s : State) : (stepGoTimes k s).memory = s.memory := by
  induction k generalizing s with
  | zero => rfl
  | succ k ih => rw [stepGoTimes, ih, stepGo_memory]

/-- Settles O20. -/
theorem memoryNeverChangesDuringARun : Obligations.MemoryNeverChangesDuringARun :=
  ⟨fun _ _ => step_memory, stepGoTimes_memory⟩

/-- The last of `k + 1` events comes after the first `k`. -/
theorem stepGoTimes_succ_last (k : Nat) (s : State) : stepGoTimes (k + 1) s = (stepGo (stepGoTimes k s)).1 := by
  induction k generalizing s with
  | zero => rfl
  | succ k ih => rw [stepGoTimes, ih, ← stepGoTimes]

/-- A `step_go` ends the run, or `pc` counts it. -/
theorem stepGo_terminal_or_pc (s : State) :
    Terminal (stepGo s).1 ∨ (stepGo s).1.pc.toNat = s.pc.toNat + 1 := by
  rcases stepGo_cases s with h | ⟨hterm, h⟩
  · by_cases ht : (stepGo s).1.status = .faulted
    · exact .inl (.inr ht)
    · exact .inr (step_pc_of_not_faulted h ht)
  · exact .inl (by rwa [h])

/-- A run has ended, or `pc` counts its events (10_state.md R26). -/
theorem stepGoTimes_terminal_or_pc (k : Nat) (s : State) :
    Terminal (stepGoTimes k s) ∨ (stepGoTimes k s).pc.toNat = s.pc.toNat + k := by
  induction k with
  | zero => exact .inr rfl
  | succ k ih =>
    rw [stepGoTimes_succ_last]
    rcases ih with hterm | hpc
    · exact .inl (by rwa [hterm.stepGo])
    · rw [← Nat.add_assoc, ← hpc]
      exact stepGo_terminal_or_pc _

/-- Settles O32: after 256 less `pc` events `pc` would count 256, which it cannot hold. -/
theorem everyRunEnds : Obligations.EveryRunEnds := by
  have hend : ∀ s : State, Terminal (stepGoTimes (256 - s.pc.toNat) s) := fun s => by
    have hs := s.pc.isLt
    have hlast := (stepGoTimes (256 - s.pc.toNat) s).pc.isLt
    exact (stepGoTimes_terminal_or_pc (256 - s.pc.toNat) s).resolve_right (by omega)
  refine ⟨hend, fun image s t h => ?_⟩
  obtain ⟨-, rfl⟩ := hostReset_next h
  exact hend { State.reset with memory := loadImage image s.memory }

/-- A run of `k` steps that all exist is `k` events. -/
theorem stepGoTimes_of_runSteps {k : Nat} {s t : State} (h : runSteps k s = .next t) : stepGoTimes k s = t := by
  induction k generalizing s with
  | zero => simpa [runSteps, stepGoTimes] using h
  | succ k ih =>
    rcases stepGo_cases s with hstep | ⟨hterm, -⟩
    · rw [runSteps_of_next k hstep] at h
      rw [stepGoTimes, ih h]
    · obtain ⟨r, hr⟩ := hterm.exists_noStep
      rw [runSteps_of_fault k (step_of_noStep hr)] at h
      cases h

/-- Settles O34: a machine still running has not ended, so `pc` has counted. -/
theorem runningPcCountsTheSteps : Obligations.RunningPcCountsTheSteps := by
  intro k s t h hrun
  have hcount := stepGoTimes_terminal_or_pc k s
  rw [stepGoTimes_of_runSteps h] at hcount
  exact hcount.resolve_left (not_terminal_of_running hrun)

theorem stepGo_withMemory {s : State} {m : Memory}
    (hm : ∀ a : Address, a.val = s.pc.toNat → runByte (Memory.read a m) = runByte (Memory.read a s.memory)) :
    (stepGo { s with memory := m }).1 = { (stepGo s).1 with memory := m } := by
  rcases stepGo_cases s with hstep | ⟨hterm, h⟩
  · rw [stepGo_of_next (step_withMemory hstep hm)]
  · rw [h, Terminal.stepGo (s := { s with memory := m }) hterm]

theorem stepGo_pc_ge (s : State) : s.pc.toNat ≤ (stepGo s).1.pc.toNat := by
  rcases stepGo_cases s with h | ⟨-, h⟩
  · by_cases ht : (stepGo s).1.status = .faulted
    · rw [step_pc_of_faulted h ht]
    · rw [step_pc_of_not_faulted h ht]
      exact Nat.le_succ _
  · rw [h]

/-- A run depends on memory only through what the bytes at `pc` and above do: `pc` never goes down
(20_memory.md R44). -/
theorem stepGoTimes_withMemory (k : Nat) {s : State} {m : Memory}
    (hm : ∀ a : Address, s.pc.toNat ≤ a.val → runByte (Memory.read a m) = runByte (Memory.read a s.memory)) :
    stepGoTimes k { s with memory := m } = { stepGoTimes k s with memory := m } := by
  induction k generalizing s with
  | zero => rfl
  | succ k ih =>
    rw [stepGoTimes, stepGo_withMemory fun a ha => hm a ha.ge, stepGoTimes]
    refine ih fun a ha => ?_
    rw [stepGo_memory]
    exact hm a ((stepGo_pc_ge s).trans ha)

/-- Settles O35: a changed byte does what it did before, since its opcode is the same and has no operand. -/
theorem ignoredOperandBitsAreNeverObserved : Obligations.IgnoredOperandBitsAreNeverObserved := by
  refine fun s m k hm => stepGoTimes_withMemory k fun a _ => ?_
  rcases hm a with heq | ⟨hop, h1, h2⟩
  · rw [heq]
  · exact runByte_congr hop h1 h2

/-- Settles O37: the cells at `pc` and above read the same. -/
theorem cellsBehindPcNeverMatter : Obligations.CellsBehindPcNeverMatter :=
  fun _ _ k hm => stepGoTimes_withMemory k fun a ha => by rw [hm a ha]

end Sys2Proof.Machine

/-! ### Straight lines: k ADDs in a row, and the first cell that stops a run (41_add.md R89, 40_step_cycle.md R83) -/

namespace Sys2Proof.Machine

/-- One ADD and then `k` more raise B by `k + 1` times A. -/
theorem repeated_aluAdd (k : Nat) (a b : Byte) :
    ((aluAdd a b).toNat + k * a.toNat) % 256 = (b.toNat + (k + 1) * a.toNat) % 256 := by
  rw [aluAdd_toNat, Nat.mod_add_mod]
  congr 1
  ring

/-- Settles O15, by induction on the number of ADDs. -/
theorem repeatedAddAccumulates : Obligations.RepeatedAddAccumulates := by
  intro k
  induction k with
  | zero =>
    intro s _ _ _
    simp [stepGoTimes, Nat.mod_eq_of_lt (show s.registerB.toNat < 256 from s.registerB.isLt)]
  | succ k ih =>
    intro s hrun hpc hcells
    have ha : s.pc.toNat < 255 := by omega
    have hadd := stepGo_of_add (a := ⟨s.pc.toNat, ha⟩) hrun rfl (hcells _ (Nat.le_refl _) (by simp))
    have hnext : (incrementPc s.pc).toNat = s.pc.toNat + 1 := incrementPc_toNat_of_cell (a := ⟨_, ha⟩) rfl
    rw [stepGoTimes, hadd, ih]
    · simp only [advance_registerB, writeReg_b_registerB, advance_registerA, writeReg_b_registerA, advance_pc,
        writeReg_b_pc, hnext, repeated_aluAdd, Nat.add_right_comm _ 1 k]
      rfl
    · exact hrun
    · simp only [advance_pc, writeReg_b_pc, hnext]
      omega
    · simp only [advance_pc, writeReg_b_pc, hnext, advance_memory, writeReg_b_memory]
      exact fun a hlo hhi => hcells a (by omega) (by omega)

/-- Below 0x30 stand the bytes of ADD and the loads, which leave the machine running at the next cell. -/
theorem stepGo_of_lt_halt {s : State} {a : Address} (hrun : s.status = .running) (ha : a.val = s.pc.toNat)
    (hb : (Memory.read a s.memory).toNat ≤ 0x2F) :
    (stepGo s).1.status = .running ∧ (stepGo s).1.pc.toNat = s.pc.toNat + 1 := by
  have hstatus : (stepGo s).1.status = .running := by
    rw [stepGo_status hrun ha, statusAfter_eq_running, opcodeOf_toNat]
    omega
  exact ⟨hstatus, (stepGo_terminal_or_pc s).resolve_left (not_terminal_of_running hstatus)⟩

/-- While no cell stops it, a run goes from cell to cell. -/
theorem stepGoTimes_straight {s : State} (hrun : s.status = .running) {k : Nat} (hk : s.pc.toNat + k ≤ 255)
    (hcells : ∀ b : Address, s.pc.toNat ≤ b.val → b.val < s.pc.toNat + k →
      (Memory.read b s.memory).toNat ≤ 0x2F) :
    (stepGoTimes k s).status = .running ∧ (stepGoTimes k s).pc.toNat = s.pc.toNat + k := by
  induction k with
  | zero => exact ⟨hrun, rfl⟩
  | succ k ih =>
    obtain ⟨hstatus, hpc⟩ := ih (by omega) fun b hlo hhi => hcells b hlo (by omega)
    have hcell := hcells ⟨s.pc.toNat + k, by omega⟩ (Nat.le_add_right _ _) (Nat.lt_succ_self _)
    rw [← stepGoTimes_memory k s] at hcell
    rw [stepGoTimes_succ_last, ← Nat.add_assoc, ← hpc]
    exact stepGo_of_lt_halt hstatus hpc.symm hcell

/-- Settles O33: the straight line up to the stopping cell, or to 255, and one more event there. -/
theorem firstStoppingCellDecidesTheEnd : Obligations.FirstStoppingCellDecidesTheEnd := by
  constructor
  · intro s a hrun hle hcells
    have ha := a.isLt
    have hline := fun k (hk : k ≤ a.val - s.pc.toNat) =>
      stepGoTimes_straight hrun (k := k) (by omega) fun b hlo hhi => hcells b hlo (by omega)
    obtain ⟨hstatus, hpc⟩ := hline _ (Nat.le_refl _)
    rw [Nat.add_sub_cancel' hle] at hpc
    rw [stepGoTimes_succ_last, ← stepGoTimes_memory (a.val - s.pc.toNat) s]
    refine ⟨hline, fun hlo hhi => ?_, fun hge => ?_⟩
    · rw [stepGo_of_halt hstatus hpc.symm hlo hhi, advance_pc, incrementPc_toNat_of_cell hpc.symm, hpc]
      exact ⟨rfl, rfl⟩
    · rw [stepGo_of_next (step_of_invalid hstatus hpc.symm hge)]
      exact ⟨rfl, hpc, rfl⟩
  · intro s hrun hcells
    have hs := s.pc.isLt
    have hline := fun k (hk : k ≤ 255 - s.pc.toNat) =>
      stepGoTimes_straight hrun (k := k) (by omega) fun b hlo _ => hcells b hlo
    obtain ⟨hstatus, hpc⟩ := hline _ (Nat.le_refl _)
    have h255 : (stepGoTimes (255 - s.pc.toNat) s).pc = 255 := BitVec.eq_of_toNat_eq (by simp; omega)
    rw [show 256 - s.pc.toNat = 255 - s.pc.toNat + 1 by omega, stepGoTimes_succ_last,
      stepGo_of_next (step_at_255 hstatus h255)]
    exact ⟨hline, rfl, h255, rfl⟩

end Sys2Proof.Machine

/-! ### Reset (70_reset_and_hazards.md R120 to R124) and the invariant under the host's events -/

namespace Sys2Proof.Machine

/-- The load overwrites every cell, so it forgets the memory before it. -/
theorem loadImage_eq (image : List Byte) {m m' : Memory} (hm : Memory.wf m) (hm' : Memory.wf m') :
    loadImage image m = loadImage image m' :=
  Memory.eq_of_read_eq (loadImage_wf image hm) (loadImage_wf image hm') fun a => by
    rw [loadImage_read, loadImage_read]

theorem loadImage_nil {m : Memory} (hm : Memory.wf m) : loadImage [] m = [] :=
  Memory.eq_of_read_eq (loadImage_wf [] hm) Memory.wf_nil fun a => by
    rw [loadImage_read, imageByte_of_le (Nat.zero_le _), Memory.read_nil]

theorem hostReset_of_overlong {image : List Byte} (h : 255 < image.length) (s : State) :
    hostReset image s = .refused (.imageTooLong image.length) := by
  rw [hostReset, if_neg (by simpa [imageWf] using h)]

/-- Settles O28. -/
theorem onlyOverlongImagesAreRefused : Obligations.OnlyOverlongImagesAreRefused := by
  refine fun image s => ⟨⟨fun h => hostReset_of_overlong h s, fun h => ?_⟩,
    ⟨fun h => ⟨_, hostReset_of_fits h s⟩, fun ⟨t, h⟩ => (hostReset_next h).1⟩⟩
  by_contra hfits
  rw [hostReset_of_fits (Nat.le_of_not_lt hfits)] at h
  cases h

/-- Settles O27: the memory is the only thing a reset takes from the image, and from the state it takes none. -/
theorem nothingSurvivesAReset : Obligations.NothingSurvivesAReset := by
  refine ⟨fun image s s' hs hs' => ?_, fun s hs => ?_⟩
  · rcases Nat.lt_or_ge 255 image.length with hlong | hfits
    · rw [hostReset_of_overlong hlong, hostReset_of_overlong hlong]
    · rw [hostReset_of_fits hfits, hostReset_of_fits hfits, loadImage_eq image hs hs']
  · rw [hostReset_of_fits (Nat.zero_le _), loadImage_nil hs]
    rfl

/-- Settles O26. -/
theorem resetLeavesTheResetValues : Obligations.ResetLeavesTheResetValues := fun _ s hfits =>
  ⟨_, hostReset_of_fits hfits s, rfl, rfl, rfl, rfl, rfl, rfl, rfl⟩

theorem reachableInv_reset {m : Memory} (hm : Memory.wf m) : ReachableInv { State.reset with memory := m } where
  memoryWf := hm
  registerA_le := Nat.zero_le 15
  running _ := ⟨rfl, rfl, rfl⟩
  halted := nofun
  faulted := nofun

theorem reachableInv_of_hostReset {image : List Byte} {s t : State} (hs : Memory.wf s.memory)
    (h : hostReset image s = .next t) : ReachableInv t := by
  obtain ⟨-, rfl⟩ := hostReset_next h
  exact reachableInv_reset (loadImage_wf image hs)

/-- Settles O29. -/
theorem invariantHoldsAtReset : Obligations.InvariantHoldsAtReset :=
  ⟨reachableInv_reset Memory.wf_nil, fun _ _ _ => reachableInv_of_hostReset⟩

theorem ReachableInv.hostEvent {e : HostEvent} {s t : State} (hs : ReachableInv s)
    (h : hostEvent e s = .next t) : ReachableInv t := by
  cases e with
  | reset image => exact reachableInv_of_hostReset hs.memoryWf h
  | stepGo =>
    cases h
    rcases stepGo_cases s with hstep | ⟨-, hsame⟩
    · exact hs.step hstep
    · rwa [hsame]

/-- Settles O31, by induction on the events. -/
theorem noHostEventBreaksTheInvariant : Obligations.NoHostEventBreaksTheInvariant := by
  intro events
  induction events with
  | nil =>
    intro s t hs h
    cases h
    exact hs
  | cons e rest ih =>
    intro s t hs h
    rw [hostEvents] at h
    split at h
    · next u hu => exact ih u t (hs.hostEvent hu) h
    · cases h
    · cases h

end Sys2Proof.Machine

/-! ### The whole opcode map, the sum, and the lines of assembly (30_encoding.md R52 to R63, 41_add.md R89) -/

namespace Sys2Proof

/-- Settles O1. -/
theorem writtenOutWordsDecode : Obligations.WrittenOutWordsDecode := by
  unfold Obligations.WrittenOutWordsDecode
  decide

/-- Settles O2. -/
theorem decoderSplitsEveryByte : Obligations.DecoderSplitsEveryByte := by
  intro b
  rw [opcodeOf_toNat, operandOf_toNat]
  exact ⟨rfl, rfl, (Nat.div_add_mod _ _).symm⟩

/-- The mask of the opcode map keeps the opcode's bits in place (30_encoding.md R54). -/
theorem and_mask_toNat (b : Byte) : (b &&& 0xF0#8).toNat = 16 * (b.toNat / 16) := by
  revert b
  decide

/-- The match and mask test of an opcode's row holds for the bytes of its instruction (30_encoding.md R54). -/
theorem and_mask_eq_iff {mk : Nibble → Instr} {op : Nibble} (hop : ∀ u, (mk u).opcode = op)
    (hopd : ∀ u, (mk u).operand = u) {pattern : Byte} (hpattern : pattern.toNat = 16 * op.toNat) (b : Byte) :
    b &&& 0xF0#8 = pattern ↔ ∃ u, decode b = .valid (mk u) := by
  rw [exists_decode_eq_valid_iff hop hopd, ← BitVec.toNat_inj, and_mask_toNat, hpattern]
  omega

/-- A byte within 15 of its opcode's first byte decodes with the distance as its operand. -/
theorem decode_of_offset {b : Byte} {i : Instr} {n : Nat} (hn : n < 16) (hopd : i.operand = BitVec.ofNat 4 n)
    (hb : b.toNat = 16 * i.opcode.toNat + n) : decode b = .valid i := by
  rw [decode_eq_valid, hopd, BitVec.toNat_ofNat, Nat.mod_eq_of_lt hn, hb]

/-- The opcode map by ranges (30_encoding.md R54, R58). -/
theorem decode_eq_by_range (b : Byte) : decode b =
    if b.toNat < 0x10 then .valid (.add (BitVec.ofNat 4 b.toNat))
    else if b.toNat < 0x20 then .valid (.loadA (BitVec.ofNat 4 (b.toNat - 0x10)))
    else if b.toNat < 0x30 then .valid (.loadB (BitVec.ofNat 4 (b.toNat - 0x20)))
    else if b.toNat < 0x40 then .valid (.halt (BitVec.ofNat 4 (b.toNat - 0x30)))
    else .invalid (BitVec.ofNat 4 (b.toNat / 16)) := by
  split_ifs
  · exact decode_of_offset (by omega) rfl (by simp [Instr.opcode])
  · exact decode_of_offset (by omega) rfl (by simp [Instr.opcode]; omega)
  · exact decode_of_offset (by omega) rfl (by simp [Instr.opcode]; omega)
  · exact decode_of_offset (by omega) rfl (by simp [Instr.opcode]; omega)
  · rw [decode_of_ge (by omega), opcodeOf_eq_ofNat]

/-- Settles O3. -/
theorem opcodeMapPartitionsAllBytes : Obligations.OpcodeMapPartitionsAllBytes := fun b =>
  ⟨decode_eq_by_range b, and_mask_eq_iff (op := 0) (fun _ => rfl) (fun _ => rfl) rfl b,
    and_mask_eq_iff (op := 1) (fun _ => rfl) (fun _ => rfl) rfl b,
    and_mask_eq_iff (op := 2) (fun _ => rfl) (fun _ => rfl) rfl b,
    and_mask_eq_iff (op := 3) (fun _ => rfl) (fun _ => rfl) rfl b⟩

end Sys2Proof

namespace Sys2Proof.Machine

/-- Settles O14: the sum is addition of bit vectors. -/
theorem sumIsModularAddition : Obligations.SumIsModularAddition := by
  refine ⟨fun x y => ?_, fun x y z => ?_, fun x => ?_, fun x hx => ?_, fun x y => ?_⟩
  · rw [aluAdd_eq_add, aluAdd_eq_add, BitVec.add_comm]
  · simp only [aluAdd_eq_add, BitVec.add_assoc]
  · rw [aluAdd_eq_add]
    exact BitVec.add_zero x
  · rw [aluAdd_eq_add]
    bv_omega
  · rw [aluAdd_toNat, Nat.add_comm y.toNat]
    exact Nat.mod_le _ _

theorem asmOperandWf_toNat (n : Nibble) : asmOperandWf n.toNat = true :=
  decide_eq_true (Nat.le_of_lt_succ n.isLt)

theorem asmByteWf_toNat (b : Byte) : asmByteWf b.toNat = true :=
  decide_eq_true (Nat.le_of_lt_succ b.isLt)

/-- Settles O40: a load's line writes its opcode's first byte plus the operand, as `encode` does. -/
theorem assemblyLinesGiveTheEncodings : Obligations.AssemblyLinesGiveTheEncodings := by
  refine ⟨by rw [encode_add]; rfl, by rw [encode_halt]; rfl, fun n => ⟨?_, ?_⟩, fun n hn => ?_, fun b => ?_,
    fun n hn => ?_⟩
  · rw [assemble, if_pos (asmOperandWf_toNat n), encode_eq_ofNat]
    rfl
  · rw [assemble, if_pos (asmOperandWf_toNat n), encode_eq_ofNat]
    rfl
  · simp [assemble, asmOperandWf, hn]
  · rw [assemble, if_pos (asmByteWf_toNat b), BitVec.ofNat_toNat, BitVec.setWidth_eq]
  · simp [assemble, asmByteWf, hn]

end Sys2Proof.Machine
